-- ==== Sys2Proof/Word.lean ====
section
/-! DEFINITION. The instruction word and the plainest integer arithmetic of 00_scope.md rules R7 and R12:
the word type, and the limits MIN and MAX of a signed integer of a given width. -/

namespace Sys2Proof

/-- An instruction word: 8 bits (30_encoding.md R56). -/
abbrev Word8 := BitVec 8

/-- `MIN = -2^(n-1)` for a signed integer of `n` bits (00_scope.md R7). -/
def minInt (n : Nat) : Int := -((2 ^ (n - 1) : Nat) : Int)

/-- `MAX = 2^(n-1) - 1` for a signed integer of `n` bits (00_scope.md R7). -/
def maxInt (n : Nat) : Int := ((2 ^ (n - 1) : Nat) : Int) - 1

end Sys2Proof
end

