-- ==== Sys2Proof/Config.lean ====
section
/-! DEFINITION. What a build of the core or its host toolchain fixes (00_scope.md section 4), and the host's values
that the spec leaves open. -/

namespace Sys2Proof

/-- The build parameters of a core. They stand as a field of `State` that nothing changes, so that every
statement about every state is a statement for every `XLEN` (00_scope.md R7; log entries 1 and 2). -/
structure Build where
  /-- `XLEN`, the register width in bits (00_scope.md R7). -/
  xlen : Nat
  /-- `IMEM_DEPTH`, the number of words the instruction memory holds (00_scope.md R8). -/
  imemDepth : Nat
  /-- `PCW`, the width of the program counter in bits (00_scope.md R10). -/
  pcw : Nat
  deriving DecidableEq, Repr

/-- What the spec demands of the parameters: `XLEN >= 2` (R7), and a `PCW` wide enough for every value in
`[-15, IMEM_DEPTH + 15]` as a signed number (R10). -/
def Build.wf (b : Build) : Bool :=
  decide (2 ≤ b.xlen) && decide (minInt b.pcw ≤ -15) && decide ((b.imemDepth : Int) + 15 ≤ maxInt b.pcw)

/-- The default build: `XLEN = 32` (00_scope.md R7). DESIGN CHOICE: the spec gives no default for `IMEM_DEPTH` and
`PCW`; the depth is 65536 and the width is the least that is enough for it (log entry 2). -/
def Build.default : Build := { xlen := 32, imemDepth := 65536, pcw := 18 }

/-- The assembler's parameter `COMMENT_MARKER`, a two-character string (00_scope.md R11). -/
structure AsmConfig where
  mark1 : Char
  mark2 : Char
  deriving DecidableEq, Repr

/-- The spec's default comment marker `//` (00_scope.md R11; log entry 17). -/
def AsmConfig.default : AsmConfig := { mark1 := '/', mark2 := '/' }

/-- One less than `FAULT_EXIT_STATUS`, so that the status is any non-zero number and no proof can name it
(93_implementation_defined.md I11; log entry 15). -/
opaque Config.faultExitLess1 : Nat

/-- The line terminator the host writes after a printed value: its characters are not given (91_not_in_source.md
N18; log entry 16). -/
opaque Config.lineTerminator : String

/-- The host's diagnostic text for a fault whose text the spec leaves to the host, by cause code
(60_exceptions.md R135; log entry 16). -/
opaque Config.hostFaultText : Nat → String

end Sys2Proof
end

