-- ==== Sys2Proof/Syntax.lean ====
section
/-! DEFINITION. The nine instructions of 00_scope.md R2 and spec/opcode_table.json, one constructor each. -/

namespace Sys2Proof

/-- A register index 0 to 3 (10_state.md R17). -/
abbrev RegIdx := Fin 4

/-- The one-bit immediate of a format R instruction (30_encoding.md R57). -/
abbrev Imm1 := Fin 2

/-- An instruction. The range of a destination (R68) and of a jump offset (R60) is checked by `Instr.wf`. -/
inductive Instr where
  /-- 41_arithmetic.md R101 -/
  | add (rd rs : RegIdx) (imm : Imm1)
  /-- 41_arithmetic.md R103 -/
  | sub (rd rs : RegIdx) (imm : Imm1)
  /-- 41_arithmetic.md R105 -/
  | set (rd rs : RegIdx) (imm : Imm1)
  /-- 42_control_transfer.md R111 -/
  | jeq (rd rs : RegIdx) (imm : Imm1)
  /-- 42_control_transfer.md R114 -/
  | j (off : Int)
  /-- 43_system_io.md R127 -/
  | empty
  /-- 43_system_io.md R121 -/
  | input
  /-- 43_system_io.md R123 -/
  | print
  /-- 43_system_io.md R125 -/
  | exit
  deriving DecidableEq, Repr

end Sys2Proof
end

