-- ==== Sys2Proof/WellFormed.lean ====
section
/-! DEFINITION. Which instructions the source admits: the operand ranges of 30_encoding.md R82. The ranges of a source
register and of the immediate are carried by their types. -/

namespace Sys2Proof

/-- A destination is 1, 2 or 3 (30_encoding.md R68, R82). -/
def destOk (rd : RegIdx) : Bool := rd != 0

/-- A jump offset is in [-16, 15] (30_encoding.md R60, R82). -/
def offsetOk (off : Int) : Bool := decide (-16 ≤ off) && decide (off ≤ 15)

/-- The operands are in the ranges of 30_encoding.md R82. -/
def Instr.wf : Instr → Bool
  | .add rd _ _ => destOk rd
  | .sub rd _ _ => destOk rd
  | .set rd _ _ => destOk rd
  | .jeq rd _ _ => destOk rd
  | .j off => offsetOk off
  | .empty => true
  | .input => true
  | .print => true
  | .exit => true

end Sys2Proof
end

