-- ==== Sys2Proof/Decode.lean ====
section
/-! DEFINITION. The decoder, total on the 256 words and rejecting by name (30_encoding.md R60 to R68), and the encoder
`enc` (30_encoding.md R71). -/

namespace Sys2Proof

/-- Why a word is illegal. -/
inductive IllegalWord where
  /-- a format R word with `rd = 0` (30_encoding.md R68) -/
  | destZero
  /-- major opcode 0b101 or 0b110 (30_encoding.md R66) -/
  | reservedOpcode
  /-- a system-group word with `w[4:2] != 0b000` (30_encoding.md R67) -/
  | systemField
  deriving DecidableEq, Repr

/-- What a word is: one of the nine instructions or ILLEGAL, and nothing else (30_encoding.md R65). -/
inductive Decoded where
  | instr (i : Instr)
  | illegal (why : IllegalWord)
  deriving DecidableEq, Repr

/-- `sext_n(w)`: the low `n` bits of `w` read as a two's-complement signed integer (00_scope.md R12). -/
def sext (n : Nat) (w : Nat) : Int :=
  let v := w % 2 ^ n
  if v < 2 ^ (n - 1) then (v : Int) else (v : Int) - ((2 ^ n : Nat) : Int)

/-- The `n`-bit two's-complement field that carries the integer `v` on a port (20_memory.md R41; log entry 20). -/
def twos (n : Nat) (v : Int) : Nat := (v % ((2 ^ n : Nat) : Int)).toNat

/-- `w[7:5]`, the major opcode (30_encoding.md R56). -/
def opField (w : Word8) : BitVec 3 := w.extractLsb' 5 3

/-- `w[4:3]` (30_encoding.md R57). -/
def rdField (w : Word8) : BitVec 2 := w.extractLsb' 3 2

/-- `w[2:1]` (30_encoding.md R57). -/
def rsField (w : Word8) : BitVec 2 := w.extractLsb' 1 2

/-- `w[0]` (30_encoding.md R57). -/
def immField (w : Word8) : BitVec 1 := w.extractLsb' 0 1

/-- `w[4:0]` (30_encoding.md R58). -/
def offField (w : Word8) : BitVec 5 := w.extractLsb' 0 5

/-- `w[4:2]`, zero in format S (30_encoding.md R59). -/
def zeroField (w : Word8) : BitVec 3 := w.extractLsb' 2 3

/-- `w[1:0]`, the function field of format S (30_encoding.md R59). -/
def fnField (w : Word8) : BitVec 2 := w.extractLsb' 0 2

/-- A format R word: `rd = 0` is illegal for all four opcodes (30_encoding.md R60, R63, R68). -/
def decodeR (mk : RegIdx → RegIdx → Imm1 → Instr) (w : Word8) : Decoded :=
  if rdField w = 0#2 then .illegal .destZero
  else .instr (mk (rdField w).toFin (rsField w).toFin (immField w).toFin)

/-- A system-group word (30_encoding.md R62, R63, R67). -/
def decodeS (w : Word8) : Decoded :=
  if zeroField w ≠ 0#3 then .illegal .systemField
  else if fnField w = 0#2 then .instr .empty
  else if fnField w = 1#2 then .instr .input
  else if fnField w = 2#2 then .instr .print
  else .instr .exit

/-- `decode(w)` of 30_encoding.md R63. -/
def decode (w : Word8) : Decoded :=
  if opField w = 0#3 then decodeR .add w
  else if opField w = 1#3 then decodeR .sub w
  else if opField w = 2#3 then decodeR .set w
  else if opField w = 3#3 then decodeR .jeq w
  else if opField w = 4#3 then .instr (.j (sext 5 (offField w).toNat))
  else if opField w = 7#3 then decodeS w
  else .illegal .reservedOpcode

/-- A format R word from its fields (30_encoding.md R57, R71). -/
def encodeR (op : BitVec 3) (rd rs : RegIdx) (imm : Imm1) : Word8 :=
  op ++ (BitVec.ofFin rd : BitVec 2) ++ (BitVec.ofFin rs : BitVec 2) ++ (BitVec.ofFin imm : BitVec 1)

/-- `enc(i)` of 30_encoding.md R71; the offset field holds `O mod 32`. DESIGN CHOICE: R71 defines `enc` only on the
instructions the assembler accepts, and the same formulas stand here for a destination of 0 and for an offset outside
`[-16, 15]` (log entry 24). -/
def encode : Instr → Word8
  | .add rd rs imm => encodeR 0b000#3 rd rs imm
  | .sub rd rs imm => encodeR 0b001#3 rd rs imm
  | .set rd rs imm => encodeR 0b010#3 rd rs imm
  | .jeq rd rs imm => encodeR 0b011#3 rd rs imm
  | .j off => 0b100#3 ++ BitVec.ofNat 5 (twos 5 off)
  | .empty => 0xE0#8
  | .input => 0xE1#8
  | .print => 0xE2#8
  | .exit => 0xE3#8

/-- The instruction the decoder reads from a table row's bits: every instruction is the one word `w[7:0]`
(30_encoding.md R56), so the bits above are not looked at. `none` where the decoder refuses. -/
def decodeTableWord (_nbits w : Nat) : Option Instr :=
  match decode (BitVec.ofNat 8 w) with
  | .instr i => some i
  | .illegal _ => none

end Sys2Proof
end

