-- ==== Sys2Proof/Machine/State.lean ====
section
/-! DEFINITION. The state of the core and of its ports as plain data (10_state.md, 20_memory.md, 70_reset_and_hazards.md
R150 to R157), the reasons a step or a host action can stop, and the state after reset. -/

namespace Sys2Proof.Machine

/-- The run state (10_state.md R28). -/
inductive RunState where
  | running
  | halted
  | faulted
  deriving DecidableEq, Repr

/-- The fault cause (10_state.md R29). -/
inductive Cause where
  | none
  | pcOutOfRange
  | illegalInstruction
  | arithOverflow
  deriving DecidableEq, Repr

/-- The instruction memory: (index, word) pairs, indices strictly rising. An index that is not listed holds no
value: the host has written nothing there (log entry 5). -/
abbrev Memory := List Host.Cell

/-- Everything the spec gives the core, its build parameters, and what the host drives or keeps at its ports.
`x[0]` is the constant 0 of 10_state.md R18 and has no cell (log entry 12). -/
structure State where
  /-- the build parameters (00_scope.md R7, R8, R10); no step and no host action changes them -/
  build : Build
  /-- `x[1]`, the accumulator (10_state.md R19) -/
  x1 : Int
  /-- `x[2]` (10_state.md R20) -/
  x2 : Int
  /-- `x[3]` (10_state.md R20) -/
  x3 : Int
  /-- the program counter, an instruction index (10_state.md R24 to R27; unbounded as R27 allows, log entry 3) -/
  pc : Int
  /-- the run state (10_state.md R28) -/
  run : RunState
  /-- the fault cause (10_state.md R29) -/
  cause : Cause
  /-- `STATUS.IN_WAIT`: an `input` waits for the input channel (10_state.md R30, 20_memory.md R47) -/
  inWait : Bool
  /-- `STATUS.OUT_WAIT`: a `print` waits for the output channel (10_state.md R30, 20_memory.md R48) -/
  outWait : Bool
  /-- the instruction memory (20_memory.md R36 to R38), written by the host alone (R52) -/
  imem : Memory
  /-- the input `prog_len`, the program length `N` (20_memory.md R39) -/
  progLen : Nat
  /-- the input `rst` (70_reset_and_hazards.md R150; log entry 11) -/
  rst : Bool
  /-- the words the host offers on the input channel, in order; the head is on `in_data`, and `in_valid` is 1 while
  there is one (20_memory.md R47, 70_reset_and_hazards.md R160; log entry 8) -/
  inOffers : List Nat
  /-- the input `out_ready` (20_memory.md R48; log entry 9) -/
  outReady : Bool
  /-- the values transferred on the output channel, oldest first (20_memory.md R48, R55; log entry 10) -/
  outLog : List Int
  deriving DecidableEq, Repr

/-- Why a step stops with no next state. The core's own faults are NOT these: they are the entry into FAULTED of
60_exceptions.md R131, which is a next state. -/
inductive Fault where
  /-- Raised by `step` where the PC is in bounds and the host never wrote the word there: the spec has the host
  write all `N` words before it releases `rst` (70_reset_and_hazards.md R151), and gives such a fetch no meaning.
  Safe: the model stops (log entry 5). -/
  | imemUnwritten (index : Nat)
  deriving DecidableEq, Repr

/-- Why the model gives no meaning. -/
inductive Refusal where
  /-- Raised by an arm of `exec` for an instruction without a meaning; no arm does. Safe. -/
  | notModelled (mnemonic : String)
  /-- Raised by `hostAct`: the host changes the program image or `prog_len` while `rst = 0`
  (20_memory.md R52, 93_implementation_defined.md I7: refuse). Safe (log entry 14). -/
  | imageChangedOutOfReset
  /-- Raised by `hostAct`: a word written at an index that the instruction memory does not have, or a
  `prog_len` above `IMEM_DEPTH` (20_memory.md R38, R39). Safe (log entry 14). -/
  | beyondImemDepth
  /-- Raised by `hostAct`: `rst` released before all `N` words are written (70_reset_and_hazards.md R151).
  Safe (log entry 14). -/
  | imageIncomplete
  /-- Raised by `hostAct`: an offered input value withdrawn before its transfer edge
  (70_reset_and_hazards.md R157, 93_implementation_defined.md I8: refuse). Safe (log entry 14). -/
  | offerWithdrawn
  /-- Raised by `hostAct`: a value outside `[MIN, MAX]` offered, which no `XLEN`-bit port can carry
  (43_system_io.md R122, 93_implementation_defined.md I14: refuse). Safe (log entry 14). -/
  | valueNotOnPort
  deriving DecidableEq, Repr

/-- The machine right after reset (10_state.md R35, 70_reset_and_hazards.md R150): every piece of core state has the
value the spec states. The default build, no program, no offered value, a host ready to accept, nothing printed
(log entries 2, 8, 9, 10, 13). -/
def State.reset : State where
  build := Build.default
  x1 := 0
  x2 := 0
  x3 := 0
  pc := 0
  run := .running
  cause := .none
  inWait := false
  outWait := false
  imem := []
  progLen := 0
  rst := false
  inOffers := []
  outReady := true
  outLog := []

end Sys2Proof.Machine
end

