-- ==== Sys2Proof/Machine/Ops.lean ====
section
/-! DEFINITION. The named operations over registers, the PC, the instruction memory and the two channels; the fault
entry of 60_exceptions.md R131; the halt of 00_scope.md R13; the reset of 70_reset_and_hazards.md R150. There is no
return from a fault: nothing leaves FAULTED but reset (60_exceptions.md R137). -/

namespace Sys2Proof.Machine

/-- `x[r]`; `x[0]` reads 0 (10_state.md R18). -/
def readReg (s : State) (r : RegIdx) : Int :=
  if r = 1 then s.x1 else if r = 2 then s.x2 else if r = 3 then s.x3 else 0

/-- `x[r] <- v`; no write port selects index 0, so a write there changes nothing (10_state.md R18; log entry 12). -/
def writeReg (r : RegIdx) (v : Int) (s : State) : State :=
  if r = 1 then { s with x1 := v } else if r = 2 then { s with x2 := v } else if r = 3 then { s with x3 := v } else s

/-- The jump-offset adder and the PC sequencer: `pc <- pc + k + 1` for the instruction's own effect `k`
(40_executor.md R92). -/
def advance (k : Int) (s : State) : State := { s with pc := s.pc + k + 1 }

/-- Fault entry: `state` and `cause` are written and nothing else (60_exceptions.md R131). -/
def enterFault (c : Cause) (s : State) : State := { s with run := .faulted, cause := c }

/-- `halt`: `state <- HALTED` with no further update (00_scope.md R13, 43_system_io.md R125). -/
def halt (s : State) : State := { s with run := .halted }

/-- What an edge with `rst = 1` does: every piece of core state takes its value of 10_state.md R35, and a waiting
transfer is abandoned. The instruction memory, `prog_len` and the channels' contents are the host's
(70_reset_and_hazards.md R150, R154, R158). -/
def coreReset (s : State) : State :=
  { s with x1 := 0, x2 := 0, x3 := 0, pc := 0, run := .running, cause := .none, inWait := false, outWait := false }

/-- The word at an index; `none` where the host has written nothing (20_memory.md R37; log entry 5). -/
def Memory.read : Memory → Nat → Option Word8
  | [], _ => none
  | (b, v) :: m, a => if a = b then some v else Memory.read m a

/-- The host's write of one word (70_reset_and_hazards.md R151), which keeps the indices rising. -/
def Memory.write : Memory → Nat → Word8 → Memory
  | [], a, w => [(a, w)]
  | (b, v) :: m, a, w =>
    if a < b then (a, w) :: (b, v) :: m
    else if a = b then (a, w) :: m
    else (b, v) :: Memory.write m a w

/-- The canonical form: indices strictly rising. An unlisted index has no value, so every listed word differs from
what an unlisted index reads as. -/
def Memory.wf : Memory → Bool
  | [] => true
  | (b, _) :: m => m.all (fun c => decide (b < c.1)) && Memory.wf m

/-- Every word of the program `0..N-1` has been written (70_reset_and_hazards.md R151 step 2). -/
def imageLoaded (s : State) : Bool := (List.range s.progLen).all fun a => (Memory.read s.imem a).isSome

/-- `InRead()`: one transfer on the input channel, if the host offers a value: `sext_XLEN(in_data)` and the state
with the offer consumed and the wait over (20_memory.md R47). `none`: the host offers nothing. -/
def inRead (s : State) : Option (Int × State) :=
  match s.inOffers with
  | [] => none
  | w :: rest => some (sext s.build.xlen w, { s with inOffers := rest, inWait := false })

/-- The core waits for the input channel: `STATUS.IN_WAIT = 1`, and all else is as before the instruction
(10_state.md R34, 20_memory.md R47; log entry 6). -/
def waitInput (s : State) : State := { s with inWait := true }

/-- `OutWrite(v)`: one transfer on the output channel, if the host accepts (20_memory.md R48). `none`: it does not. -/
def outWrite (v : Int) (s : State) : Option State :=
  if s.outReady then some { s with outLog := s.outLog ++ [v], outWait := false } else none

/-- The core waits for the output channel: `STATUS.OUT_WAIT = 1`, and all else is as before the instruction
(10_state.md R34, 20_memory.md R48; log entry 6). -/
def waitOutput (s : State) : State := { s with outWait := true }

end Sys2Proof.Machine
end

