-- ==== Sys2Proof/Machine/Flags.lean ====
section
/-! DEFINITION. The core has no status flags (10_state.md R31): what stands here is what other machines keep in
flags, the overflow check of the ALU (41_arithmetic.md R107) and the equality comparator (40_executor.md R95). Neither
result is stored. -/

namespace Sys2Proof.Machine

/-- `in_range(v)`: `MIN <= v <= MAX` for the build's `XLEN` (00_scope.md R7, R12). -/
def inRange (b : Build) (v : Int) : Bool := decide (minInt b.xlen ≤ v) && decide (v ≤ maxInt b.xlen)

/-- The ALU's check of one exact result: the result itself, or `none` where it leaves `[MIN, MAX]`
(41_arithmetic.md R107). -/
def checked (b : Build) (v : Int) : Option Int := if inRange b v then some v else none

/-- The equality comparator on two operands (42_control_transfer.md R111). -/
def comparator (a b : Int) : Bool := decide (a = b)

end Sys2Proof.Machine
end

