-- ==== Sys2Proof/Machine/Operands.lean ====
section
/-! DEFINITION. The operand forms (30_encoding.md R60, 40_executor.md R95): two register read ports and the one-bit
immediate. The jump offset is carried as the signed integer it is. -/

namespace Sys2Proof.Machine

/-- Read port A: `x[rd]` (40_executor.md R95). -/
def portA (s : State) (rd : RegIdx) : Int := readReg s rd

/-- Read port B: `x[rs]` (40_executor.md R95); `rs = 0` reads 0 (30_encoding.md R69). -/
def portB (s : State) (rs : RegIdx) : Int := readReg s rs

/-- The immediate: an unsigned value, 0 or 1 (41_arithmetic.md R108). -/
def immValue (imm : Imm1) : Int := (imm.val : Int)

/-- The accumulator r1, the implicit operand of `input` and `print` (10_state.md R19). -/
def accumulator : RegIdx := 1

end Sys2Proof.Machine
end

