-- ==== Sys2Proof/Machine/Arithmetic.lean ====
section
/-! DEFINITION. `add`, `sub` and `set` (41_arithmetic.md R101, R103, R105). -/

namespace Sys2Proof.Machine

/-- `add`'s two checked sums, the first partial before the second (41_arithmetic.md R101, R107). -/
def aluAdd (b : Build) (x y imm : Int) : Option Int :=
  match checked b (x + y) with
  | none => none
  | some t1 => checked b (t1 + imm)

/-- `sub`'s two checked differences, the first partial before the second (41_arithmetic.md R103, R107). -/
def aluSub (b : Build) (x y imm : Int) : Option Int :=
  match checked b (x - y) with
  | none => none
  | some t1 => checked b (t1 - imm)

/-- The end of an arithmetic instruction: ARITH_OVERFLOW where a check failed, else the result is written and the PC
moves on (41_arithmetic.md R107; 40_executor.md R92, R93). -/
def writeResult (rd : RegIdx) (r : Option Int) (s : State) : Host.Outcome State Fault Refusal :=
  match r with
  | none => .next (enterFault .arithOverflow s)
  | some v => .next (advance 0 (writeReg rd v s))

/-- 41_arithmetic.md R101. -/
def execAdd (rd rs : RegIdx) (imm : Imm1) (s : State) : Host.Outcome State Fault Refusal :=
  writeResult rd (aluAdd s.build (portA s rd) (portB s rs) (immValue imm)) s

/-- 41_arithmetic.md R103. -/
def execSub (rd rs : RegIdx) (imm : Imm1) (s : State) : Host.Outcome State Fault Refusal :=
  writeResult rd (aluSub s.build (portA s rd) (portB s rs) (immValue imm)) s

/-- 41_arithmetic.md R105. -/
def execSet (rd rs : RegIdx) (imm : Imm1) (s : State) : Host.Outcome State Fault Refusal :=
  writeResult rd (checked s.build (portB s rs + immValue imm)) s

end Sys2Proof.Machine
end

