-- ==== Sys2Proof/Machine/Control.lean ====
section
/-! DEFINITION. `jeq` and `j` (42_control_transfer.md R111, R114), with the off-by-one that R120 makes normative. -/

namespace Sys2Proof.Machine

/-- `jeq`'s own PC effect, before the trailing +1 (40_executor.md R92, 42_control_transfer.md R111). -/
def jeqEffect (eq : Bool) (imm : Imm1) : Int :=
  if eq then immValue imm else if imm = 0 then 1 else 0

/-- 42_control_transfer.md R111: no register is written, and the comparison is not stored. -/
def execJeq (rd rs : RegIdx) (imm : Imm1) (s : State) : Host.Outcome State Fault Refusal :=
  .next (advance (jeqEffect (comparator (portA s rd) (portB s rs)) imm) s)

/-- 42_control_transfer.md R114: the net displacement is `off + 1`. A target out of bounds is written all the same
(R117). -/
def execJ (off : Int) (s : State) : Host.Outcome State Fault Refusal := .next (advance off s)

end Sys2Proof.Machine
end

