-- ==== Sys2Proof/Machine/System.lean ====
section
/-! DEFINITION. `input`, `print`, `exit` and `empty` (43_system_io.md R121, R123, R125, R127). -/

namespace Sys2Proof.Machine

/-- 43_system_io.md R121. While the host offers nothing the core waits, with no timeout (20_memory.md R47): the wait
is a next state in which `STATUS.IN_WAIT = 1` and nothing else changes, and the next step tries again (log entry 6). -/
def execInput (s : State) : Host.Outcome State Fault Refusal :=
  match inRead s with
  | none => .next (waitInput s)
  | some (v, t) => .next (advance 0 (writeReg accumulator v t))

/-- 43_system_io.md R123. While the host does not accept the core waits, with no timeout (20_memory.md R48), as
`execInput` does. -/
def execPrint (s : State) : Host.Outcome State Fault Refusal :=
  match outWrite (readReg s accumulator) s with
  | none => .next (waitOutput s)
  | some t => .next (advance 0 t)

/-- 43_system_io.md R125: no trailing +1. -/
def execExit (s : State) : Host.Outcome State Fault Refusal := .next (halt s)

/-- 43_system_io.md R127. -/
def execEmpty (s : State) : Host.Outcome State Fault Refusal := .next (advance 0 s)

end Sys2Proof.Machine
end

