-- ==== Sys2Proof/Machine/Dispatch.lean ====
section
/-! DEFINITION. The one dispatch from an instruction to its meaning (40_executor.md R94). -/

namespace Sys2Proof.Machine

def exec (i : Instr) (s : State) : Host.Outcome State Fault Refusal :=
  match i with
  | .add rd rs imm => Sys2Proof.Machine.execAdd rd rs imm s
  | .sub rd rs imm => Sys2Proof.Machine.execSub rd rs imm s
  | .set rd rs imm => Sys2Proof.Machine.execSet rd rs imm s
  | .jeq rd rs imm => Sys2Proof.Machine.execJeq rd rs imm s
  | .j off => Sys2Proof.Machine.execJ off s
  | .empty => Sys2Proof.Machine.execEmpty s
  | .input => Sys2Proof.Machine.execInput s
  | .print => Sys2Proof.Machine.execPrint s
  | .exit => Sys2Proof.Machine.execExit s

end Sys2Proof.Machine
end

