-- ==== Sys2Proof/Machine/Fetch.lean ====
section
/-! DEFINITION. The bounds check and the fetch (40_executor.md R90, R91; 20_memory.md R37), and where the host places a
program. -/

namespace Sys2Proof.Machine

/-- What the bounds check and the fetch give. -/
inductive Fetched where
  /-- the PC is outside `[0, N-1]`; nothing is fetched (40_executor.md R90) -/
  | outOfRange
  /-- the PC is in bounds and the host has written no word there (log entry 5) -/
  | unwritten (index : Nat)
  /-- `w = MemRead(pc, 1)` (40_executor.md R91) -/
  | word (w : Word8)
  deriving DecidableEq, Repr

/-- `pc < 0 or pc >= N` (40_executor.md R90). -/
def pcOutOfBounds (s : State) : Bool := decide (s.pc < 0) || decide (s.pc ≥ (s.progLen : Int))

/-- The bounds check, then the fetch of one word. A fetch has no side effect (20_memory.md R37). -/
def fetch (s : State) : Fetched :=
  if pcOutOfBounds s then .outOfRange
  else
    match Memory.read s.imem s.pc.toNat with
    | none => .unwritten s.pc.toNat
    | some w => .word w

/-- The instruction the next step executes, if its word is fetched and legal. -/
def currentInstr (s : State) : Option Instr :=
  match fetch s with
  | .word w =>
    match decode w with
    | .instr i => some i
    | .illegal _ => none
  | _ => none

/-- The word placed at the PC as the host's load would place it: `rst` released, the core RUNNING at an index that is
in bounds, and `prog_len` covering it (70_reset_and_hazards.md R151; log entry 13). -/
def placeWord (s : State) (w : Word8) : State :=
  { s with
    rst := false
    run := .running
    cause := .none
    pc := (s.pc.toNat : Int)
    imem := Memory.write s.imem s.pc.toNat w
    progLen := max s.progLen (s.pc.toNat + 1) }

end Sys2Proof.Machine
end

