-- ==== Sys2Proof/Machine/Step.lean ====
section
/-! DEFINITION. One step of the core (40_executor.md R94). There is no time and no second agent in it
(70_reset_and_hazards.md R156, 60_exceptions.md R144; log entries 21 and 22). -/

namespace Sys2Proof.Machine

/-- One step. Reset wins (60_exceptions.md R140); HALTED and FAULTED hold their state until reset (R137; log entry 7);
RUNNING checks the PC, fetches, decodes and executes, and a fault of the core is the entry of R131, in the order of
R138. -/
def step (s : State) : Host.Outcome State Fault Refusal :=
  if s.rst then .next (coreReset s)
  else
    match s.run with
    | .halted => .next s
    | .faulted => .next s
    | .running =>
      match fetch s with
      | .outOfRange => .next (enterFault .pcOutOfRange s)
      | .unwritten a => .fault (.imemUnwritten a)
      | .word w =>
        match decode w with
        | .illegal _ => .next (enterFault .illegalInstruction s)
        | .instr i => exec i s

/-- The state with an instruction's one word stored where `step` fetches next (log entry 13). -/
def State.withFetchWord (s : State) (_nbits w : Nat) : State := placeWord s (BitVec.ofNat 8 w)

end Sys2Proof.Machine
end

