-- ==== Sys2Proof/Machine/Assembler.lean ====
section
/-! DEFINITION. The host assembler and its inverse (30_encoding.md section 6, R73 to R88): program text, as the list of
its characters (log entry 19), to instruction words, and back. -/

namespace Sys2Proof.Machine

/-- What is wrong with a line (30_encoding.md R80 to R84). The text of a diagnostic is the host's (R85). -/
inductive AsmError where
  /-- the first token is no mnemonic (R80) -/
  | unknownMnemonic
  /-- the token count is not the mnemonic's (R81) -/
  | wrongOperandCount
  /-- a register operand without the sigil (R84) -/
  | missingSigil
  /-- a token that is not of its operand's syntax (R77 to R79) -/
  | badToken
  /-- `D` not in [1, 3] (R82) -/
  | destOutOfRange
  /-- `S` not in [0, 3] (R82) -/
  | srcOutOfRange
  /-- `IMM` not in 0, 1 (R82) -/
  | immOutOfRange
  /-- `OFFSET` not in [-16, 15] (R82) -/
  | offsetOutOfRange
  deriving DecidableEq, Repr

/-- One diagnostic: the offending line and argument index, both counted from 0 here (30_encoding.md R85;
log entry 18). -/
structure Diagnostic where
  line : Nat
  arg : Nat
  error : AsmError
  deriving DecidableEq, Repr

/-- A line is one instruction, or its errors with their argument indices. -/
inductive LineResult where
  | ok (i : Instr)
  | errors (es : List (Nat × AsmError))
  deriving DecidableEq, Repr

/-- What the assembler gives: the words, or the diagnostics and no words (30_encoding.md R83). -/
inductive AsmResult where
  | words (ws : List Word8)
  | rejected (ds : List Diagnostic)
  deriving DecidableEq, Repr

/-- LF, the line separator (30_encoding.md R74). -/
def lineFeed : Char := Char.ofNat 10

/-- Whitespace: space, HT, VT, FF and CR (30_encoding.md R75). -/
def isBlank (c : Char) : Bool := c.toNat == 32 || c.toNat == 9 || c.toNat == 11 || c.toNat == 12 || c.toNat == 13

/-- The source lines: split at LF, a final LF starts no line, and empty text has none (30_encoding.md R74). -/
def splitLines : List Char → List (List Char)
  | [] => []
  | c :: cs =>
    if c = lineFeed then [] :: splitLines cs
    else
      match splitLines cs with
      | [] => [[c]]
      | l :: ls => (c :: l) :: ls

/-- The tokens of a line, split at runs of whitespace; `cur` is the token under way (30_encoding.md R75). -/
def splitTokens (cur : List Char) : List Char → List (List Char)
  | [] => if cur = [] then [] else [cur]
  | c :: cs =>
    if isBlank c then (if cur = [] then splitTokens [] cs else cur :: splitTokens [] cs)
    else splitTokens (cur ++ [c]) cs

/-- The token begins with the comment marker (30_encoding.md R75). -/
def startsComment (cfg : AsmConfig) : List Char → Bool
  | a :: b :: _ => a == cfg.mark1 && b == cfg.mark2
  | _ => false

/-- The tokens before the first that begins with the marker (30_encoding.md R75). -/
def dropComment (cfg : AsmConfig) : List (List Char) → List (List Char)
  | [] => []
  | t :: ts => if startsComment cfg t then [] else t :: dropComment cfg ts

/-- The mnemonics (30_encoding.md R80). -/
def nameAdd : List Char := ['a', 'd', 'd']
def nameSub : List Char := ['s', 'u', 'b']
def nameSet : List Char := ['s', 'e', 't']
def nameJeq : List Char := ['j', 'e', 'q']
def nameJ : List Char := ['j']
def nameInput : List Char := ['i', 'n', 'p', 'u', 't']
def namePrint : List Char := ['p', 'r', 'i', 'n', 't']
def nameExit : List Char := ['e', 'x', 'i', 't']
def nameEmpty : List Char := ['e', 'm', 'p', 't', 'y']

/-- The Loader's token list of a line; a line with no tokens is the placeholder `empty` (30_encoding.md R76). -/
def loadLine (cfg : AsmConfig) (line : List Char) : List (List Char) :=
  match dropComment cfg (splitTokens [] line) with
  | [] => [nameEmpty]
  | ts => ts

/-- An ASCII decimal digit's value. -/
def digit (c : Char) : Option Nat := if 48 ≤ c.toNat ∧ c.toNat ≤ 57 then some (c.toNat - 48) else none

/-- The number that `acc` followed by these digits denotes. -/
def digitsFrom (acc : Nat) : List Char → Option Nat
  | [] => some acc
  | c :: cs =>
    match digit c with
    | none => none
    | some d => digitsFrom (10 * acc + d) cs

/-- One or more decimal digits and nothing else; leading zeros are allowed (30_encoding.md R77, R78). -/
def parseNat : List Char → Option Nat
  | [] => none
  | cs => digitsFrom 0 cs

/-- An optional sign, then digits (30_encoding.md R79). -/
def parseSigned : List Char → Option Int
  | '-' :: cs => (parseNat cs).map fun n => -(n : Int)
  | '+' :: cs => (parseNat cs).map fun n => (n : Int)
  | cs => (parseNat cs).map fun n => (n : Int)

/-- A register operand: the sigil `#`, then digits (30_encoding.md R77, R84); a value above 3 is out of range, under
the name given (R82). -/
def parseReg (range : AsmError) : List Char → Except AsmError RegIdx
  | '#' :: cs =>
    match parseNat cs with
    | none => .error .badToken
    | some n => if h : n < 4 then .ok ⟨n, h⟩ else .error range
  | _ => .error .missingSigil

/-- A destination operand, in [1, 3] (30_encoding.md R82). -/
def parseDest (t : List Char) : Except AsmError RegIdx :=
  match parseReg .destOutOfRange t with
  | .ok r => if destOk r then .ok r else .error .destOutOfRange
  | .error e => .error e

/-- A source operand, in [0, 3] (30_encoding.md R82). -/
def parseSrc (t : List Char) : Except AsmError RegIdx := parseReg .srcOutOfRange t

/-- An immediate, 0 or 1 (30_encoding.md R78, R82). -/
def parseImm (t : List Char) : Except AsmError Imm1 :=
  match parseNat t with
  | none => .error .badToken
  | some n => if h : n < 2 then .ok ⟨n, h⟩ else .error .immOutOfRange

/-- A jump offset, in [-16, 15] (30_encoding.md R79, R82). -/
def parseOffset (t : List Char) : Except AsmError Int :=
  match parseSigned t with
  | none => .error .badToken
  | some v => if offsetOk v then .ok v else .error .offsetOutOfRange

/-- An operand's error, if it has one, at its argument index. -/
def errorAt {α : Type} (arg : Nat) : Except AsmError α → List (Nat × AsmError)
  | .ok _ => []
  | .error e => [(arg, e)]

/-- The operands of a format R line: every operand is checked, also after an error (30_encoding.md R81, R82, R83).
DESIGN CHOICE: a wrong token count names argument 0, the mnemonic, and its operands are not checked (log entry 18). -/
def checkR (mk : RegIdx → RegIdx → Imm1 → Instr) : List (List Char) → LineResult
  | [d, s, i] =>
    match parseDest d, parseSrc s, parseImm i with
    | .ok rd, .ok rs, .ok imm => .ok (mk rd rs imm)
    | rd, rs, imm => .errors (errorAt 1 rd ++ errorAt 2 rs ++ errorAt 3 imm)
  | _ => .errors [(0, .wrongOperandCount)]

/-- The operand of `j` (30_encoding.md R81, R82). DESIGN CHOICE: a wrong token count names argument 0, the mnemonic
(log entry 18). -/
def checkJ : List (List Char) → LineResult
  | [o] =>
    match parseOffset o with
    | .ok off => .ok (.j off)
    | .error e => .errors [(1, e)]
  | _ => .errors [(0, .wrongOperandCount)]

/-- A mnemonic without operands (30_encoding.md R81). DESIGN CHOICE: a wrong token count names argument 0, the mnemonic
(log entry 18). -/
def checkS (i : Instr) : List (List Char) → LineResult
  | [] => .ok i
  | _ => .errors [(0, .wrongOperandCount)]

/-- The Validator on one token list (30_encoding.md R80, R81). -/
def checkTokens : List (List Char) → LineResult
  | [] => .errors [(0, .unknownMnemonic)]
  | name :: args =>
    if name = nameAdd then checkR .add args
    else if name = nameSub then checkR .sub args
    else if name = nameSet then checkR .set args
    else if name = nameJeq then checkR .jeq args
    else if name = nameJ then checkJ args
    else if name = nameInput then checkS .input args
    else if name = namePrint then checkS .print args
    else if name = nameExit then checkS .exit args
    else if name = nameEmpty then checkS .empty args
    else .errors [(0, .unknownMnemonic)]

/-- One source line: exactly one instruction, or errors (30_encoding.md R74, R86). -/
def assembleLine (cfg : AsmConfig) (line : List Char) : LineResult := checkTokens (loadLine cfg line)

/-- The lines from number `k` on: every line is checked and every error kept, and words come out only if no line has
one (30_encoding.md R73, R83, R86). -/
def assembleLines (cfg : AsmConfig) : Nat → List (List Char) → AsmResult
  | _, [] => .words []
  | k, l :: ls =>
    match assembleLine cfg l, assembleLines cfg (k + 1) ls with
    | .ok i, .words ws => .words (encode i :: ws)
    | .ok _, .rejected ds => .rejected ds
    | .errors es, .words _ => .rejected (es.map fun e => { line := k, arg := e.1, error := e.2 })
    | .errors es, .rejected ds => .rejected (es.map (fun e => { line := k, arg := e.1, error := e.2 }) ++ ds)

/-- The assembler (30_encoding.md R73). -/
def assemble (cfg : AsmConfig) (text : List Char) : AsmResult := assembleLines cfg 0 (splitLines text)

/-- The decimal digit of a number below 10. -/
def digitChar (n : Nat) : Char := Char.ofNat (48 + n)

/-- A number in decimal, with fuel for one digit more than it can have. -/
def showNatFuel : Nat → Nat → List Char
  | 0, _ => []
  | fuel + 1, n => if n < 10 then [digitChar n] else showNatFuel fuel (n / 10) ++ [digitChar (n % 10)]

/-- A number in decimal, with no leading zero. -/
def showNat (n : Nat) : List Char := showNatFuel (n + 1) n

/-- An integer in signed decimal (30_encoding.md R88). -/
def showInt (v : Int) : List Char := if v < 0 then '-' :: showNat (-v).toNat else showNat v.toNat

/-- `name #D #S I` (30_encoding.md R88). -/
def showR (name : List Char) (rd rs : RegIdx) (imm : Imm1) : List Char :=
  name ++ [' ', '#'] ++ showNat rd.val ++ [' ', '#'] ++ showNat rs.val ++ [' '] ++ showNat imm.val

/-- The text of an instruction (30_encoding.md R88). -/
def render : Instr → List Char
  | .add rd rs imm => showR nameAdd rd rs imm
  | .sub rd rs imm => showR nameSub rd rs imm
  | .set rd rs imm => showR nameSet rd rs imm
  | .jeq rd rs imm => showR nameJeq rd rs imm
  | .j off => nameJ ++ [' '] ++ showInt off
  | .empty => nameEmpty
  | .input => nameInput
  | .print => namePrint
  | .exit => nameExit

/-- Disassembly: the text of a legal word; an illegal word has none (30_encoding.md R88). -/
def disassemble (w : Word8) : Option (List Char) :=
  match decode w with
  | .instr i => some (render i)
  | .illegal _ => none

end Sys2Proof.Machine
end

