-- ==== Sys2Proof/Machine/Ports.lean ====
section
/-! DEFINITION. What the host reads at the core's ports (10_state.md R30; 20_memory.md R38, R41, R47, R48): views computed
from the state, none of them stored twice. -/

namespace Sys2Proof.Machine

/-- The code of `STATUS.STATE` (10_state.md R30). -/
def stateCode : RunState → BitVec 2
  | .running => 0b00
  | .halted => 0b01
  | .faulted => 0b10

/-- The code of `STATUS.CAUSE` (10_state.md R30). -/
def causeCode : Cause → BitVec 2
  | .none => 0b00
  | .pcOutOfRange => 0b01
  | .illegalInstruction => 0b10
  | .arithOverflow => 0b11

/-- The status word: OUT_WAIT, IN_WAIT, CAUSE[1:0], STATE[1:0] from bit 5 down (10_state.md R30). -/
def statusWord (s : State) : BitVec 6 :=
  BitVec.ofBool s.outWait ++ BitVec.ofBool s.inWait ++ causeCode s.cause ++ stateCode s.run

/-- The PC port (10_state.md R30). -/
def pcPort (s : State) : Int := s.pc

/-- `imem_addr`: the index of the fetch, in `PCW` bits (20_memory.md R38). DESIGN CHOICE: it carries the PC, in two's
complement, in every state, also where nothing is fetched (the PC out of bounds, HALTED, FAULTED, in reset), for which the
spec gives it no value (log entry 23). -/
def imemAddr (s : State) : Nat := twos s.build.pcw s.pc

/-- The core drives the channels only while it runs: `in_ready = 0` and `out_valid = 0` in reset, HALTED and FAULTED
(60_exceptions.md R137, 70_reset_and_hazards.md R150). -/
def drivesChannels (s : State) : Bool := !s.rst && decide (s.run = .running)

/-- `in_ready`: 1 only while an `input` waits for its transfer (20_memory.md R47). -/
def inReady (s : State) : Bool := drivesChannels s && s.inWait

/-- `in_valid` (20_memory.md R47). -/
def inValid (s : State) : Bool := !s.inOffers.isEmpty

/-- `out_valid`: 1 only while a `print` waits for its transfer (20_memory.md R48). -/
def outValid (s : State) : Bool := drivesChannels s && s.outWait

/-- `out_data`: `x[1]` in two's complement while `out_valid = 1` (20_memory.md R41, R48). -/
def outData (s : State) : Option Nat := if outValid s then some (twos s.build.xlen s.x1) else none

end Sys2Proof.Machine
end

