-- ==== Sys2Proof/Machine/HostPort.lean ====
section
/-! DEFINITION. What the host can do to the core between steps (70_reset_and_hazards.md R150 to R158), how it boots a
program (R151, R152), and what it makes of the final status and of the output values (60_exceptions.md R135,
20_memory.md R48). -/

namespace Sys2Proof.Machine

/-- The host's interactions (70_reset_and_hazards.md R157). Reading STATUS and the PC port changes nothing and is no
action. -/
inductive HostAction where
  /-- `rst = 1` for at least one edge -/
  | assertReset
  /-- `rst` returns to 0 -/
  | releaseReset
  /-- one word of the program image -/
  | writeImem (index : Nat) (w : Word8)
  /-- `prog_len` -/
  | setProgLen (n : Nat)
  /-- one more value on the input channel, after those already offered -/
  | offerInput (v : Int)
  /-- the offered value withdrawn -/
  | withdrawInput
  /-- the level of `out_ready` -/
  | setOutReady (ready : Bool)
  deriving DecidableEq, Repr

/-- One host action. Asserting `rst` includes the edge that resets the core (R150; log entry 11); the image and `prog_len` change
only while `rst = 1` (R52, R157); what breaks a duty of the host is refused by name (log entry 14). -/
def hostAct (a : HostAction) (s : State) : Host.Outcome State Fault Refusal :=
  match a with
  | .assertReset => .next { coreReset s with rst := true }
  | .releaseReset =>
    if s.rst then
      if imageLoaded s then .next { coreReset s with rst := false } else .refused .imageIncomplete
    else .next s
  | .writeImem index w =>
    if !s.rst then .refused .imageChangedOutOfReset
    else if s.build.imemDepth ≤ index then .refused .beyondImemDepth
    else .next { s with imem := Memory.write s.imem index w }
  | .setProgLen n =>
    if !s.rst then .refused .imageChangedOutOfReset
    else if s.build.imemDepth < n then .refused .beyondImemDepth
    else .next { s with progLen := n }
  | .offerInput v =>
    if inRange s.build v then .next { s with inOffers := s.inOffers ++ [twos s.build.xlen v] }
    else .refused .valueNotOnPort
  | .withdrawInput => if s.inOffers.isEmpty then .next s else .refused .offerWithdrawn
  | .setOutReady ready => .next { s with outReady := ready }

/-- Host actions one after another, stopping at the first that is refused. -/
def hostRun : List HostAction → State → Host.Outcome State Fault Refusal
  | [], s => .next s
  | a :: as, s =>
    match hostAct a s with
    | .next t => hostRun as t
    | .fault r => .fault r
    | .refused r => .refused r

/-- The writes of a program's words to indices `k`, `k+1`, ... (70_reset_and_hazards.md R151 step 2). -/
def imageWrites : Nat → List Word8 → List HostAction
  | _, [] => []
  | k, w :: ws => .writeImem k w :: imageWrites (k + 1) ws

/-- The load of a program, in the order of 70_reset_and_hazards.md R151. DESIGN CHOICE: step 4, that the host be ready to
serve the two channels, asks for no action here. The load neither sets nor checks `out_ready` or the offers, and releases
with whatever stood there: readiness is that the host can act later, and R157 lets it never accept (log entry 25). -/
def loadActions (ws : List Word8) : List HostAction :=
  .assertReset :: imageWrites 0 ws ++ [.setProgLen ws.length, .releaseReset]

/-- From program text to a core that runs it. Text that the assembler rejects leaves the core in reset: it is never
released, and no step occurs (70_reset_and_hazards.md R151, R152). -/
def bootText (cfg : AsmConfig) (text : List Char) (s : State) : Host.Outcome State Fault Refusal :=
  match assemble cfg text with
  | .words ws => hostRun (loadActions ws) s
  | .rejected _ => hostRun [.assertReset] s

/-- `FAULT_EXIT_STATUS`: any non-zero number (60_exceptions.md R135; log entry 15). -/
def faultExitStatus : Nat := Config.faultExitLess1 + 1

/-- The process exit status the host gives for a final status; none while the core is RUNNING
(60_exceptions.md R135). -/
def exitStatus (s : State) : Option Nat :=
  match s.run with
  | .running => none
  | .halted => some 0
  | .faulted => some faultExitStatus

/-- A diagnostic line: its marker and the text it carries; the layout of the line is the host's (30_encoding.md R85). -/
structure HostDiagnostic where
  marker : String
  text : String
  deriving DecidableEq, Repr

/-- The diagnostic of a fault: the source's end-of-program text for PC_OUT_OF_RANGE, else a text of the host's choice
(60_exceptions.md R132, R135; log entry 16). -/
def faultDiagnostic (s : State) : Option HostDiagnostic :=
  match s.run with
  | .running => none
  | .halted => none
  | .faulted =>
    match s.cause with
    | .pcOutOfRange => some { marker := "Error", text := "reached end of program without explicit halt" }
    | c => some { marker := "Error", text := Config.hostFaultText (causeCode c).toNat }

/-- The host's rendering of one output value: signed decimal and a line terminator (20_memory.md R48;
log entry 16). -/
def renderValue (v : Int) : String := String.ofList (showInt v) ++ Config.lineTerminator

/-- The host's rendering of the values printed so far, in order (20_memory.md R48, R49). -/
def renderOutput (s : State) : List String := s.outLog.map renderValue

end Sys2Proof.Machine
end

