-- ==== Sys2Proof/Safety.lean ====
section
/-! DEFINITION. What claims are stated in: the machine's invariant, the frame of an instruction, the fault entry as seen
in the state, and the observation of a run (20_memory.md R55, 70_reset_and_hazards.md R159). -/

namespace Sys2Proof.Machine

/-- What every state of a well-run machine satisfies: the spec's own statements about the core's state, and the duties
of the host that the spec demands before it releases `rst`. -/
structure Inv (s : State) : Prop where
  /-- `XLEN >= 2` and a `PCW` that is wide enough (00_scope.md R7, R10) -/
  build_wf : s.build.wf = true
  /-- every register holds a value in `[MIN, MAX]` (10_state.md R17) -/
  regs_range : ∀ r, inRange s.build (readReg s r) = true
  /-- `N <= IMEM_DEPTH` (00_scope.md R8) -/
  progLen_le : s.progLen ≤ s.build.imemDepth
  /-- the memory's canonical form -/
  imem_wf : Memory.wf s.imem = true
  /-- the memory holds `IMEM_DEPTH` words (20_memory.md R38) -/
  imem_depth : ∀ a, s.build.imemDepth ≤ a → Memory.read s.imem a = none
  /-- out of reset, the host has written the `N` words (70_reset_and_hazards.md R151) -/
  loaded : s.rst = false → imageLoaded s = true
  /-- the PC lies in `[-15, N + 15]` (10_state.md R27) -/
  pc_low : -15 ≤ s.pc
  pc_high : s.pc ≤ (s.progLen : Int) + 15
  /-- `cause != NONE` holds exactly when `state = FAULTED` (10_state.md R29) -/
  cause_iff : s.cause ≠ .none ↔ s.run = .faulted
  /-- `IN_WAIT` is 1 only while an `input` waits (10_state.md R30) -/
  in_wait : s.inWait = true → s.rst = false ∧ s.run = .running ∧ currentInstr s = some .input
  /-- `OUT_WAIT` is 1 only while a `print` waits (10_state.md R30) -/
  out_wait : s.outWait = true → s.rst = false ∧ s.run = .running ∧ currentInstr s = some .print
  /-- `in_data` is `XLEN` bits wide (20_memory.md R47) -/
  offers_width : ∀ w ∈ s.inOffers, w < 2 ^ s.build.xlen
  /-- every value printed is in `[MIN, MAX]` (43_system_io.md R124) -/
  out_range : ∀ v ∈ s.outLog, inRange s.build v = true
  /-- while `rst = 1` the core is in its reset state (70_reset_and_hazards.md R150) -/
  in_reset : s.rst = true → coreReset s = s

/-- What belongs to the host or to the build, and which no instruction writes: the build parameters, every word of the
instruction memory, `prog_len`, `rst` and `out_ready` (20_memory.md R44, R52). -/
structure HostPartSame (s t : State) : Prop where
  build : t.build = s.build
  imem : ∀ a, Memory.read t.imem a = Memory.read s.imem a
  progLen : t.progLen = s.progLen
  rst : t.rst = s.rst
  outReady : t.outReady = s.outReady

/-- No transfer took place, and neither wait began or ended. -/
structure ChannelsSame (s t : State) : Prop where
  inOffers : t.inOffers = s.inOffers
  outLog : t.outLog = s.outLog
  inWait : t.inWait = s.inWait
  outWait : t.outWait = s.outWait

/-- Neither the run state nor the cause changed. -/
structure RunSame (s t : State) : Prop where
  run : t.run = s.run
  cause : t.cause = s.cause

/-- Every register reads as before. -/
def RegsSame (s t : State) : Prop := ∀ r, readReg t r = readReg s r

/-- `t` is `s` with the fault `c` raised, as 60_exceptions.md R131 has it. -/
structure FaultEntered (c : Cause) (s t : State) : Prop where
  run : t.run = .faulted
  cause : t.cause = c
  pc : t.pc = s.pc
  regs : RegsSame s t
  channels : ChannelsSame s t
  host : HostPartSame s t

/-- The core is out of reset and RUNNING, its PC is in bounds, and the word there is `w`: the conditions under which a
step fetches `w` (40_executor.md R89 to R91). -/
structure Fetches (s : State) (w : Word8) : Prop where
  rst : s.rst = false
  run : s.run = .running
  low : 0 ≤ s.pc
  high : s.pc < (s.progLen : Int)
  word : Memory.read s.imem s.pc.toNat = some w

/-- The register an instruction writes, if it writes one (10_state.md R21). -/
def writtenReg : Instr → Option RegIdx
  | .add rd _ _ => some rd
  | .sub rd _ _ => some rd
  | .set rd _ _ => some rd
  | .jeq _ _ _ => none
  | .j _ => none
  | .empty => none
  | .input => some accumulator
  | .print => none
  | .exit => none

/-- A range check of the ALU fails for this instruction in this state (41_arithmetic.md R107). -/
def overflows (s : State) : Instr → Bool
  | .add rd rs imm =>
    !inRange s.build (readReg s rd + readReg s rs) ||
      !inRange s.build (readReg s rd + readReg s rs + immValue imm)
  | .sub rd rs imm =>
    !inRange s.build (readReg s rd - readReg s rs) ||
      !inRange s.build (readReg s rd - readReg s rs - immValue imm)
  | .set _ rs imm => !inRange s.build (readReg s rs + immValue imm)
  | .jeq _ _ _ => false
  | .j _ => false
  | .empty => false
  | .input => false
  | .print => false
  | .exit => false

/-- The observation of a run (20_memory.md R55, 70_reset_and_hazards.md R159). -/
structure Observation where
  outputs : List Int
  run : RunState
  cause : Cause
  regs : List Int
  pc : Int
  deriving DecidableEq, Repr

/-- What the run from `start` to `s` shows: the values transferred since its start, and the final status, registers
and PC. -/
def observe (start s : State) : Observation where
  outputs := s.outLog.drop start.outLog.length
  run := s.run
  cause := s.cause
  regs := [readReg s 0, readReg s 1, readReg s 2, readReg s 3]
  pc := s.pc

/-- The only successful end of a run; a FAULTED state is never one (40_executor.md R98). -/
def endsWell (s : State) : Bool := decide (s.run = .halted)

/-- The run has ended (70_reset_and_hazards.md R159). -/
def ended (s : State) : Bool := decide (s.run ≠ .running)

end Sys2Proof.Machine
end

