-- ==== Sys2Proof/Certificates/Slice0/Obligations.lean ====
section
/-! DEFINITION. The statements for the provers. Each docstring names the rules of spec/ that its statement formalises, and,
where a clause is the model's own choice, the log entry. -/

open Sys2Proof Sys2Proof.Machine

/-! ### Encoding -/

/-- 30_encoding.md R71: the word of each instruction the assembler accepts, as numbers, and `decode(enc(i)) = i`. -/
def Obligations.DecodeInvertsEncode : Prop :=
  (∀ (rd rs : RegIdx) (imm : Imm1), rd ≠ 0 →
      (encode (.add rd rs imm)).toNat = 0b00000000 + rd.val * 8 + rs.val * 2 + imm.val ∧
      (encode (.sub rd rs imm)).toNat = 0b00100000 + rd.val * 8 + rs.val * 2 + imm.val ∧
      (encode (.set rd rs imm)).toNat = 0b01000000 + rd.val * 8 + rs.val * 2 + imm.val ∧
      (encode (.jeq rd rs imm)).toNat = 0b01100000 + rd.val * 8 + rs.val * 2 + imm.val) ∧
  (∀ off : Int, -16 ≤ off → off ≤ 15 → ((encode (.j off)).toNat : Int) = 0b10000000 + off % 32) ∧
  (encode .empty).toNat = 0xE0 ∧ (encode .input).toNat = 0xE1 ∧
  (encode .print).toNat = 0xE2 ∧ (encode .exit).toNat = 0xE3 ∧
  (∀ i : Instr, i.wf = true → decode (encode i) = .instr i)

/-- 30_encoding.md R60, R63, R65: a word that decodes to an instruction decodes to a well-formed one, and it is that
instruction's one word; so no two words are the same instruction. DESIGN CHOICE (log entry 24): the formulas of R71 give
a word to a destination of 0 and to an offset out of range as well, which no decoded instruction has. -/
def Obligations.EncodeInvertsDecode : Prop :=
  (∀ (w : Word8) (i : Instr), decode w = .instr i → i.wf = true ∧ encode i = w) ∧
  (∀ (rd rs : RegIdx) (imm : Imm1),
      (encode (.add rd rs imm)).toNat = rd.val * 8 + rs.val * 2 + imm.val ∧
      (encode (.sub rd rs imm)).toNat = 32 + rd.val * 8 + rs.val * 2 + imm.val ∧
      (encode (.set rd rs imm)).toNat = 64 + rd.val * 8 + rs.val * 2 + imm.val ∧
      (encode (.jeq rd rs imm)).toNat = 96 + rd.val * 8 + rs.val * 2 + imm.val) ∧
  (∀ off : Int, ((encode (.j off)).toNat : Int) = 128 + off % 32) ∧
  (∀ (w : Word8) (i : Instr), i.wf = false → decode w ≠ .instr i)

/-- 30_encoding.md R72, the worked encodings, in both directions. -/
def Obligations.WorkedEncodingsDecode : Prop :=
  (encode (.set 1 0 1) = 0b01001001 ∧ decode 0x49 = .instr (.set 1 0 1)) ∧
  (encode (.add 1 0 1) = 0b00001001 ∧ decode 0x09 = .instr (.add 1 0 1)) ∧
  (encode (.sub 3 0 1) = 0b00111001 ∧ decode 0x39 = .instr (.sub 3 0 1)) ∧
  (encode (.jeq 1 0 1) = 0b01101001 ∧ decode 0x69 = .instr (.jeq 1 0 1)) ∧
  (encode (.j (-2)) = 0b10011110 ∧ decode 0x9E = .instr (.j (-2))) ∧
  (encode (.j 15) = 0b10001111 ∧ decode 0x8F = .instr (.j 15)) ∧
  (encode (.j (-16)) = 0b10010000 ∧ decode 0x90 = .instr (.j (-16)))

/-! ### The step -/

/-- 40_executor.md R91, R94: where the word at the PC decodes to an instruction, the step is `exec` of it, and nothing
is added around it (the trailing +1 is part of each instruction's meaning). -/
def Obligations.StepRunsDecodedInstr : Prop :=
  ∀ (s : State) (w : Word8) (i : Instr), Fetches s w → decode w = .instr i →
    i.wf = true ∧ currentInstr s = some i ∧ step s = exec i s

/-- 40_executor.md R90, 60_exceptions.md R132: the bounds check comes first, whatever the memory holds, and its
diagnostic is the source's text; with `N = 0` the first step after reset faults. -/
def Obligations.PcOutOfRangeFaults : Prop :=
  (∀ s : State, s.rst = false → s.run = .running → (s.pc < 0 ∨ (s.progLen : Int) ≤ s.pc) →
      ∃ t, step s = .next t ∧ FaultEntered .pcOutOfRange s t ∧
        ∃ d, faultDiagnostic t = some d ∧ d.text = "reached end of program without explicit halt") ∧
  (∀ s : State, s.rst = false → s.run = .running → s.pc = 0 → s.progLen = 0 →
      ∃ t, step s = .next t ∧ t.run = .faulted ∧ t.cause = .pcOutOfRange ∧ t.pc = 0)

/-- 30_encoding.md R66, R67, R68, 60_exceptions.md R133: each kind of illegal word faults when it is executed, and the
word can be read back at the unchanged PC. -/
def Obligations.IllegalWordFaults : Prop :=
  ∀ (s : State) (w : Word8), Fetches s w →
    ((w.toNat < 0x80 ∧ w.toNat / 8 % 4 = 0) ∨ (0xA0 ≤ w.toNat ∧ w.toNat ≤ 0xDF) ∨ 0xE4 ≤ w.toNat) →
    ∃ t, step s = .next t ∧ FaultEntered .illegalInstruction s t ∧ causeCode t.cause = 0b10 ∧
      Memory.read t.imem t.pc.toNat = some w

/-- 60_exceptions.md R138: at most one fault a step, in the order bounds check, decode, range check; and no fault where
all three pass. -/
def Obligations.FaultPriorityOrder : Prop :=
  ∀ s : State, s.rst = false → s.run = .running → s.cause = .none →
    ((s.pc < 0 ∨ (s.progLen : Int) ≤ s.pc) → ∃ t, step s = .next t ∧ t.cause = .pcOutOfRange) ∧
    (∀ w, Fetches s w → ∃ t, step s = .next t ∧
      t.cause = (match decode w with
        | .illegal _ => Cause.illegalInstruction
        | .instr i => if overflows s i then Cause.arithOverflow else Cause.none))

/-- 60_exceptions.md R131: a step that faults changes `state` and `cause` and nothing else at all; the cause is one of the
three (10_state.md R29), and it and the unchanged PC are visible on the ports. -/
def Obligations.FaultingStepWritesOnlyStatus : Prop :=
  ∀ s t : State, s.rst = false → s.run = .running → step s = .next t → t.run = .faulted →
    t = { s with run := .faulted, cause := t.cause } ∧ t.cause ≠ .none ∧
    (statusWord t).extractLsb' 0 2 = 0b10#2 ∧ (statusWord t).extractLsb' 2 2 = causeCode t.cause ∧ pcPort t = s.pc

/-- 60_exceptions.md R137: HALTED and FAULTED are terminal: any number of steps leaves the whole state as it is, and the
core drives neither channel. DESIGN CHOICE (log entry 7): the model shows "no step" as a step to the same state. -/
def Obligations.TerminalStatesHold : Prop :=
  ∀ (s : State) (k : Nat), s.rst = false → ended s = true →
    Sys2Proof.core.run k s = .next s ∧ inReady s = false ∧ outValid s = false

/-- 43_system_io.md R126, R129, 40_executor.md R98: only `exit` leads from RUNNING to HALTED, and it writes nothing
else. -/
def Obligations.OnlyExitHalts : Prop :=
  ∀ s t : State, s.run = .running → step s = .next t → t.run = .halted →
    s.rst = false ∧ currentInstr s = some .exit ∧ t = { s with run := .halted }

/-- 70_reset_and_hazards.md R150, R158, 10_state.md R35: an edge with `rst = 1`, in any state, gives the reset values,
makes no transfer, and leaves what the host keeps. -/
def Obligations.ResetEdgeClearsCore : Prop :=
  ∀ s : State, s.rst = true → ∃ t, step s = .next t ∧
    (∀ r, readReg t r = 0) ∧ t.pc = 0 ∧ t.run = .running ∧ t.cause = .none ∧ statusWord t = 0 ∧
    inReady t = false ∧ outValid t = false ∧
    t.inOffers = s.inOffers ∧ t.outLog = s.outLog ∧ t.imem = s.imem ∧ t.progLen = s.progLen ∧
    t.rst = true ∧ t.build = s.build

/-- 10_state.md R35, 70_reset_and_hazards.md R150: the state after reset has the values the spec states. -/
def Obligations.ResetStateValues : Prop :=
  (∀ r, readReg State.reset r = 0) ∧ State.reset.pc = 0 ∧ State.reset.run = .running ∧
  State.reset.cause = .none ∧ statusWord State.reset = 0b000000 ∧
  State.reset.inWait = false ∧ State.reset.outWait = false

/-! ### Invariants and whole-machine rules -/

/-- The invariant holds in the state after reset. -/
def Obligations.InvAtReset : Prop := Inv State.reset

/-- 10_state.md R17, R27, R29, R30, 20_memory.md R38: every step keeps the invariant, from every state that meets it. -/
def Obligations.InvKeptByStep : Prop :=
  ∀ s t : State, Inv s → step s = .next t → Inv t

/-- From every state that meets the invariant the core steps: the model neither stops nor refuses. -/
def Obligations.InvStepsNeverStop : Prop :=
  ∀ s : State, Inv s → ∃ t, step s = .next t

/-- 70_reset_and_hazards.md R151, R157: every action the model lets the host take keeps the invariant. -/
def Obligations.InvKeptByHost : Prop :=
  ∀ (a : HostAction) (s t : State), Inv s → hostAct a s = .next t → Inv t

/-- 10_state.md R27: the PC moves only in a step that starts in bounds, by at most +16 and at least -15, so it lies in
`[-15, N + 15]` and fits its `PCW` bits: it never wraps, and `imem_addr` carries it without loss (20_memory.md R38). That
`imem_addr` carries the PC also where nothing is fetched is the model's choice (log entry 23). -/
def Obligations.PcNeverWraps : Prop :=
  (∀ s t : State, s.rst = false → step s = .next t →
      (t.pc ≠ s.pc → 0 ≤ s.pc ∧ s.pc ≤ (s.progLen : Int) - 1) ∧ -15 ≤ t.pc - s.pc ∧ t.pc - s.pc ≤ 16) ∧
  (∀ s t : State, Inv s → step s = .next t →
      -15 ≤ t.pc ∧ t.pc ≤ (t.progLen : Int) + 15 ∧ minInt t.build.pcw ≤ t.pc ∧ t.pc ≤ maxInt t.build.pcw) ∧
  (∀ s : State, Inv s → sext s.build.pcw (imemAddr s) = s.pc ∧ imemAddr s < 2 ^ s.build.pcw)

/-- 20_memory.md R44, R52, 10_state.md R33, 40_executor.md R100: no step changes the program image, `N`, the build
parameters or what the host drives. -/
def Obligations.StepKeepsHostPart : Prop :=
  ∀ s t : State, step s = .next t →
    t.imem = s.imem ∧ t.progLen = s.progLen ∧ t.build = s.build ∧ t.rst = s.rst ∧ t.outReady = s.outReady

/-- 40_executor.md R93, 20_memory.md R49: out of reset a step writes at most one register, and makes at most one
channel transfer: one offer consumed, or one value printed, which is `x[1]`; what was printed before stays, in order. -/
def Obligations.OneRegisterOneTransfer : Prop :=
  ∀ s t : State, s.rst = false → step s = .next t →
    (∃ r, ∀ r', r' ≠ r → readReg t r' = readReg s r') ∧
    ((t.inOffers = s.inOffers ∧ t.outLog = s.outLog) ∨
     ((∃ w, s.inOffers = w :: t.inOffers) ∧ t.outLog = s.outLog) ∨
     (t.inOffers = s.inOffers ∧ t.outLog = s.outLog ++ [readReg s 1]))

/-- 10_state.md R21: no instruction writes a register other than the one the rule's table gives it. -/
def Obligations.OnlyTheTablesRegister : Prop :=
  ∀ (i : Instr) (s t : State) (r : RegIdx), exec i s = .next t → writtenReg i ≠ some r →
    readReg t r = readReg s r

/-- 40_executor.md R96, 10_state.md R34: the offers on the input channel matter to `input` alone and `out_ready` to
`print` alone; no program sees a wait bit: two steps that differ only in those agree on all the rest. -/
def Obligations.StepSeesHostOnlyThroughChannels : Prop :=
  (∀ (s t : State) (l : List Nat), currentInstr s ≠ some .input → step s = .next t →
      step { s with inOffers := l } = .next { t with inOffers := l }) ∧
  (∀ (s t : State) (b : Bool), currentInstr s ≠ some .print → step s = .next t →
      step { s with outReady := b } = .next { t with outReady := b }) ∧
  (∀ (s t : State) (a b : Bool), step s = .next t →
      ∃ t', step { s with inWait := a, outWait := b } = .next t' ∧
        { t' with inWait := false, outWait := false } = { t with inWait := false, outWait := false })

/-- 20_memory.md R40, R55, 40_executor.md R96: what a run from reset shows after any number of steps is a function of the
words below `N`, `N`, `XLEN`, the input values and the host's acceptance: it does not depend on words beyond `N`, on the
other build parameters or on what was printed in an earlier run. -/
def Obligations.ObservationIsFunctionOfInputs : Prop :=
  ∀ (s1 s2 t1 : State) (k : Nat),
    s1.rst = false → s2.rst = false → coreReset s1 = s1 → coreReset s2 = s2 →
    s2.build.xlen = s1.build.xlen → s2.progLen = s1.progLen →
    (∀ a, a < s1.progLen → Memory.read s2.imem a = Memory.read s1.imem a) →
    s2.inOffers = s1.inOffers → s2.outReady = s1.outReady →
    Sys2Proof.core.run k s1 = .next t1 →
    ∃ t2, Sys2Proof.core.run k s2 = .next t2 ∧ observe s2 t2 = observe s1 t1

/-- 10_state.md R18: r0 reads 0 in every state, a write there changes nothing, and no legal word names it as a
destination. -/
def Obligations.RegisterZeroReadsZero : Prop :=
  (∀ s : State, readReg s 0 = 0) ∧
  (∀ (s : State) (v : Int) (r : RegIdx), readReg (writeReg 0 v s) r = readReg s r) ∧
  (∀ (w : Word8) (i : Instr), decode w = .instr i → writtenReg i ≠ some 0) ∧
  (∀ (s t : State) (i : Instr), exec i s = .next t → readReg t 0 = 0)

/-- 10_state.md R30: the fields of the status word and their codes, and that 0b11 never occurs in STATE. -/
def Obligations.StatusWordFields : Prop :=
  ∀ s : State,
    (statusWord s).extractLsb' 0 2 =
      (match s.run with | .running => 0b00#2 | .halted => 0b01#2 | .faulted => 0b10#2) ∧
    (statusWord s).extractLsb' 2 2 =
      (match s.cause with
        | .none => 0b00#2 | .pcOutOfRange => 0b01#2 | .illegalInstruction => 0b10#2 | .arithOverflow => 0b11#2) ∧
    (statusWord s).getLsbD 4 = s.inWait ∧ (statusWord s).getLsbD 5 = s.outWait ∧
    (statusWord s).extractLsb' 0 2 ≠ 0b11#2

/-! ### Arithmetic -/

/-- 41_arithmetic.md R101: `add`, on every state and every operand the rule allows, and the rule's example. -/
def Obligations.AddEffect : Prop :=
  (∀ (s : State) (rd rs : RegIdx) (imm : Imm1), rd ≠ 0 →
    (encode (.add rd rs imm)).extractLsb' 5 3 = 0b000#3 ∧
    (inRange s.build (readReg s rd + readReg s rs) = false →
      ∃ t, exec (.add rd rs imm) s = .next t ∧ FaultEntered .arithOverflow s t) ∧
    (inRange s.build (readReg s rd + readReg s rs) = true →
      inRange s.build (readReg s rd + readReg s rs + immValue imm) = false →
      ∃ t, exec (.add rd rs imm) s = .next t ∧ FaultEntered .arithOverflow s t) ∧
    (inRange s.build (readReg s rd + readReg s rs) = true →
      inRange s.build (readReg s rd + readReg s rs + immValue imm) = true →
      ∃ t, exec (.add rd rs imm) s = .next t ∧
        readReg t rd = readReg s rd + readReg s rs + immValue imm ∧
        (∀ r, r ≠ rd → readReg t r = readReg s r) ∧ t.pc = s.pc + 1 ∧ RunSame s t)) ∧
  encode (.add 1 2 1) = 0x0D ∧
  (∀ s : State, 5 ≤ s.build.xlen → readReg s 1 = 5 → readReg s 2 = 7 →
    ∃ t, exec (.add 1 2 1) s = .next t ∧ readReg t 1 = 13 ∧ t.pc = s.pc + 1)

/-- 41_arithmetic.md R103: `sub`, on every state and every operand the rule allows, and the rule's example. -/
def Obligations.SubEffect : Prop :=
  (∀ (s : State) (rd rs : RegIdx) (imm : Imm1), rd ≠ 0 →
    (encode (.sub rd rs imm)).extractLsb' 5 3 = 0b001#3 ∧
    (inRange s.build (readReg s rd - readReg s rs) = false →
      ∃ t, exec (.sub rd rs imm) s = .next t ∧ FaultEntered .arithOverflow s t) ∧
    (inRange s.build (readReg s rd - readReg s rs) = true →
      inRange s.build (readReg s rd - readReg s rs - immValue imm) = false →
      ∃ t, exec (.sub rd rs imm) s = .next t ∧ FaultEntered .arithOverflow s t) ∧
    (inRange s.build (readReg s rd - readReg s rs) = true →
      inRange s.build (readReg s rd - readReg s rs - immValue imm) = true →
      ∃ t, exec (.sub rd rs imm) s = .next t ∧
        readReg t rd = readReg s rd - readReg s rs - immValue imm ∧
        (∀ r, r ≠ rd → readReg t r = readReg s r) ∧ t.pc = s.pc + 1 ∧ RunSame s t)) ∧
  encode (.sub 3 0 1) = 0x39 ∧
  (∀ s : State, 3 ≤ s.build.xlen → readReg s 3 = 2 →
    ∃ t, exec (.sub 3 0 1) s = .next t ∧ readReg t 3 = 1 ∧ t.pc = s.pc + 1)

/-- 41_arithmetic.md R105: `set`, on every state and every operand the rule allows, and the rule's example. -/
def Obligations.SetEffect : Prop :=
  (∀ (s : State) (rd rs : RegIdx) (imm : Imm1), rd ≠ 0 →
    (encode (.set rd rs imm)).extractLsb' 5 3 = 0b010#3 ∧
    (inRange s.build (readReg s rs + immValue imm) = false →
      ∃ t, exec (.set rd rs imm) s = .next t ∧ FaultEntered .arithOverflow s t) ∧
    (inRange s.build (readReg s rs) = true →
      (inRange s.build (readReg s rs + immValue imm) = false ↔ readReg s rs = maxInt s.build.xlen ∧ imm = 1)) ∧
    (inRange s.build (readReg s rs + immValue imm) = true →
      ∃ t, exec (.set rd rs imm) s = .next t ∧
        readReg t rd = readReg s rs + immValue imm ∧
        (∀ r, r ≠ rd → readReg t r = readReg s r) ∧ t.pc = s.pc + 1 ∧ RunSame s t)) ∧
  encode (.set 1 0 1) = 0x49 ∧
  (∀ s : State, 2 ≤ s.build.xlen →
    ∃ t, exec (.set 1 0 1) s = .next t ∧ readReg t 1 = 1 ∧ t.pc = s.pc + 1)

/-- 41_arithmetic.md R102, the corner cases of `add`, for register values in range. -/
def Obligations.AddCornerCases : Prop :=
  ∀ (s : State) (rd rs : RegIdx) (imm : Imm1), 2 ≤ s.build.xlen → rd ≠ 0 →
    (∀ r, inRange s.build (readReg s r) = true) →
    (inRange s.build (readReg s rd + immValue imm) = true →
      ∃ t, exec (.add rd 0 imm) s = .next t ∧ readReg t rd = readReg s rd + immValue imm) ∧
    (inRange s.build (2 * readReg s rd) = true → inRange s.build (2 * readReg s rd + immValue imm) = true →
      ∃ t, exec (.add rd rd imm) s = .next t ∧ readReg t rd = 2 * readReg s rd + immValue imm) ∧
    (inRange s.build (readReg s rd + readReg s rs) = true →
      ∃ t, exec (.add rd rs 0) s = .next t ∧ readReg t rd = readReg s rd + readReg s rs) ∧
    (inRange s.build (readReg s rd + readReg s rs) = false ↔
      (0 < readReg s rd ∧ 0 < readReg s rs ∧ maxInt s.build.xlen < readReg s rd + readReg s rs) ∨
      (readReg s rd < 0 ∧ readReg s rs < 0 ∧ readReg s rd + readReg s rs < minInt s.build.xlen)) ∧
    (inRange s.build (readReg s rd + readReg s rs) = true →
      (inRange s.build (readReg s rd + readReg s rs + immValue imm) = false ↔
        readReg s rd + readReg s rs = maxInt s.build.xlen ∧ imm = 1)) ∧
    (readReg s rd = minInt s.build.xlen → readReg s rs = -1 →
      inRange s.build (readReg s rd + readReg s rs + 1) = true ∧
      ∃ t, exec (.add rd rs 1) s = .next t ∧ FaultEntered .arithOverflow s t)

/-- 41_arithmetic.md R104, the corner cases of `sub`, for register values in range. -/
def Obligations.SubCornerCases : Prop :=
  ∀ (s : State) (rd rs : RegIdx) (imm : Imm1), 2 ≤ s.build.xlen → rd ≠ 0 →
    (∀ r, inRange s.build (readReg s r) = true) →
    (inRange s.build (readReg s rd - immValue imm) = true →
      ∃ t, exec (.sub rd 0 imm) s = .next t ∧ readReg t rd = readReg s rd - immValue imm) ∧
    (∃ t, exec (.sub rd rd imm) s = .next t ∧ readReg t rd = -immValue imm ∧ RunSame s t) ∧
    (inRange s.build (readReg s rd - readReg s rs) = false ↔
      (0 ≤ readReg s rd ∧ readReg s rs < 0 ∧ maxInt s.build.xlen < readReg s rd - readReg s rs) ∨
      (readReg s rd < 0 ∧ 0 < readReg s rs ∧ readReg s rd - readReg s rs < minInt s.build.xlen)) ∧
    (readReg s rs = minInt s.build.xlen → 0 ≤ readReg s rd →
      inRange s.build (readReg s rd - readReg s rs) = false) ∧
    (inRange s.build (readReg s rd - readReg s rs) = true →
      (inRange s.build (readReg s rd - readReg s rs - immValue imm) = false ↔
        readReg s rd - readReg s rs = minInt s.build.xlen ∧ imm = 1)) ∧
    (readReg s rd = 0 → readReg s rs = minInt s.build.xlen →
      readReg s rd - readReg s rs - 1 = maxInt s.build.xlen ∧
      ∃ t, exec (.sub rd rs 1) s = .next t ∧ FaultEntered .arithOverflow s t)

/-- 41_arithmetic.md R106, the corner cases of `set`, for register values in range; the old value of the destination is
not read. -/
def Obligations.SetCornerCases : Prop :=
  ∀ (s : State) (rd rs : RegIdx) (imm : Imm1), 2 ≤ s.build.xlen → rd ≠ 0 →
    (∀ r, inRange s.build (readReg s r) = true) →
    (∃ t, exec (.set rd 0 imm) s = .next t ∧ readReg t rd = immValue imm ∧ RunSame s t) ∧
    (∃ t, exec (.set rd rs 0) s = .next t ∧ readReg t rd = readReg s rs ∧ RunSame s t) ∧
    (inRange s.build (readReg s rd + immValue imm) = true →
      ∃ t, exec (.set rd rd imm) s = .next t ∧ readReg t rd = readReg s rd + immValue imm) ∧
    exec (.set rd rd 0) s = .next { s with pc := s.pc + 1 } ∧
    (∀ (v : Int) (t : State), rs ≠ rd → exec (.set rd rs imm) s = .next t → t.run = s.run → s.run ≠ .faulted →
      exec (.set rd rs imm) (writeReg rd v s) = .next t)

/-- 41_arithmetic.md R110: completion without a fault is the passing of both range checks, and then the value written is
the exact one. -/
def Obligations.ArithCompletesExactly : Prop :=
  ∀ (s : State) (rd rs : RegIdx) (imm : Imm1), s.run = .running → rd ≠ 0 →
    ((∃ t, exec (.add rd rs imm) s = .next t ∧ t.run = .running) ↔
      inRange s.build (readReg s rd + readReg s rs) = true ∧
      inRange s.build (readReg s rd + readReg s rs + immValue imm) = true) ∧
    ((∃ t, exec (.sub rd rs imm) s = .next t ∧ t.run = .running) ↔
      inRange s.build (readReg s rd - readReg s rs) = true ∧
      inRange s.build (readReg s rd - readReg s rs - immValue imm) = true) ∧
    ((∃ t, exec (.set rd rs imm) s = .next t ∧ t.run = .running) ↔
      inRange s.build (readReg s rs + immValue imm) = true) ∧
    (∀ t, t.run = .running →
      (exec (.add rd rs imm) s = .next t → readReg t rd = readReg s rd + readReg s rs + immValue imm) ∧
      (exec (.sub rd rs imm) s = .next t → readReg t rd = readReg s rd - readReg s rs - immValue imm) ∧
      (exec (.set rd rs imm) s = .next t → readReg t rd = readReg s rs + immValue imm))

/-- The frame of `add`, `sub` and `set` (10_state.md R21, R31, 40_executor.md R93): beyond the destination and the PC
nothing changes; a fault changes only the status. -/
def Obligations.ArithFrame : Prop :=
  ∀ (s t : State) (rd rs : RegIdx) (imm : Imm1),
    (exec (.add rd rs imm) s = .next t ∨ exec (.sub rd rs imm) s = .next t ∨ exec (.set rd rs imm) s = .next t) →
    (∀ r, r ≠ rd → readReg t r = readReg s r) ∧ ChannelsSame s t ∧ HostPartSame s t ∧
    ((RunSame s t ∧ t.pc = s.pc + 1) ∨ FaultEntered .arithOverflow s t)

/-- A destination of 0, which no legal word names (30_encoding.md R68). DESIGN CHOICE (log entry 12): the model's meaning
discards the write and goes on as otherwise. -/
def Obligations.DestZeroDiscardsWrite : Prop :=
  ∀ (s : State) (rs : RegIdx) (imm : Imm1) (i : Instr),
    (i = .add 0 rs imm ∨ i = .sub 0 rs imm ∨ i = .set 0 rs imm) →
    (∀ w, decode w ≠ .instr i) ∧
    (overflows s i = true → ∃ t, exec i s = .next t ∧ FaultEntered .arithOverflow s t) ∧
    (overflows s i = false → ∃ t, exec i s = .next t ∧ RegsSame s t ∧ RunSame s t ∧ t.pc = s.pc + 1)

/-! ### Control transfer -/

/-- 42_control_transfer.md R111: `jeq`, with its normative off-by-one; the rule's example. -/
def Obligations.JeqEffect : Prop :=
  (∀ (s : State) (rd rs : RegIdx) (imm : Imm1),
    (rd ≠ 0 → (encode (.jeq rd rs imm)).extractLsb' 5 3 = 0b011#3) ∧
    ∃ t, exec (.jeq rd rs imm) s = .next t ∧
      (readReg s rd = readReg s rs → t.pc = s.pc + immValue imm + 1) ∧
      (readReg s rd ≠ readReg s rs → imm = 0 → t.pc = s.pc + 2) ∧
      (readReg s rd ≠ readReg s rs → imm ≠ 0 → t.pc = s.pc + 1) ∧
      RegsSame s t ∧ RunSame s t) ∧
  encode (.jeq 1 0 1) = 0x69 ∧
  (∀ s : State, readReg s 1 = 0 → s.pc = 1 → ∃ t, exec (.jeq 1 0 1) s = .next t ∧ t.pc = 3)

/-- 42_control_transfer.md R113: `jeq` skips exactly one instruction when `(x[rd] == x[rs]) == (imm == 1)`, and otherwise
falls through. -/
def Obligations.JeqSkipCondition : Prop :=
  ∀ (s : State) (rd rs : RegIdx) (imm : Imm1), ∃ t, exec (.jeq rd rs imm) s = .next t ∧
    (t.pc = s.pc + 2 ↔ (readReg s rd = readReg s rs ↔ imm = 1)) ∧
    (t.pc = s.pc + 1 ↔ ¬(readReg s rd = readReg s rs ↔ imm = 1)) ∧
    s.pc + 1 ≤ t.pc ∧ t.pc ≤ s.pc + 2

/-- 42_control_transfer.md R114: `j` moves the PC by `off + 1`, also out of bounds; the rule's example. -/
def Obligations.JumpEffect : Prop :=
  (∀ (s : State) (off : Int),
    (offsetOk off = true → (encode (.j off)).extractLsb' 5 3 = 0b100#3 ∧
      sext 5 ((encode (.j off)).extractLsb' 0 5).toNat = off) ∧
    ∃ t, exec (.j off) s = .next t ∧ t.pc = s.pc + off + 1 ∧ RegsSame s t ∧ RunSame s t) ∧
  encode (.j (-2)) = 0x9E ∧
  (∀ s : State, s.pc = 1 → ∃ t, exec (.j (-2)) s = .next t ∧ t.pc = 0)

/-- 42_control_transfer.md R118: `j` reaches each of the 32 targets `[pc - 15, pc + 16]` by exactly one offset, and no
other; `jeq` reaches `pc + 1` or `pc + 2`. -/
def Obligations.JumpReach : Prop :=
  (∀ (s : State) (target : Int),
    (s.pc - 15 ≤ target ∧ target ≤ s.pc + 16) ↔
      ∃ off, (offsetOk off = true ∧ ∃ t, exec (.j off) s = .next t ∧ t.pc = target) ∧
        ∀ off', offsetOk off' = true → (∃ t, exec (.j off') s = .next t ∧ t.pc = target) → off' = off) ∧
  (∀ (s t : State) (rd rs : RegIdx) (imm : Imm1), exec (.jeq rd rs imm) s = .next t →
    t.pc = s.pc + 1 ∨ t.pc = s.pc + 2)

/-- 42_control_transfer.md R117: a transfer out of bounds does not fault itself: the PC holds the target, and the next
step faults with the target still in the PC. -/
def Obligations.TargetFaultsAtNextStep : Prop :=
  ∀ (s t : State) (w : Word8), Fetches s w →
    ((∃ off, decode w = .instr (.j off)) ∨ (∃ rd rs imm, decode w = .instr (.jeq rd rs imm))) →
    step s = .next t →
    (∀ off, decode w = .instr (.j off) → t.pc = s.pc + off + 1) ∧
    (∀ rd rs imm, decode w = .instr (.jeq rd rs imm) →
      t.pc = if readReg s rd = readReg s rs then s.pc + immValue imm + 1 else if imm = 0 then s.pc + 2 else s.pc + 1) ∧
    t.run = .running ∧ t.cause = s.cause ∧
    ((t.pc < 0 ∨ (t.progLen : Int) ≤ t.pc) →
      ∃ u, step t = .next u ∧ FaultEntered .pcOutOfRange t u)

/-- The frame of `jeq` and `j` (10_state.md R21, R31): only the PC changes. -/
def Obligations.ControlFrame : Prop :=
  ∀ (s t : State) (i : Instr), ((∃ rd rs imm, i = .jeq rd rs imm) ∨ ∃ off, i = .j off) →
    exec i s = .next t →
    RegsSame s t ∧ RunSame s t ∧ ChannelsSame s t ∧ HostPartSame s t

/-! ### System and channels -/

/-- 43_system_io.md R121, 20_memory.md R47: where the host offers a word (`in_valid = 1`), `input` consumes it and writes
`sext_XLEN(in_data)`, a value in `[MIN, MAX]`, to r1; and the host can offer any value in range, in two's complement (R41;
log entry 20), which `input` then writes. -/
def Obligations.InputEffect : Prop :=
  (∀ (s : State) (w : Nat) (rest : List Nat), s.inOffers = w :: rest →
    inValid s = true ∧ ∃ t, exec .input s = .next t ∧ readReg t 1 = sext s.build.xlen w ∧ t.pc = s.pc + 1 ∧
      t.inOffers = rest ∧ t.inWait = false ∧ RunSame s t ∧
      (1 ≤ s.build.xlen → inRange s.build (readReg t 1) = true)) ∧
  (∀ (s : State) (v : Int), 1 ≤ s.build.xlen → s.inOffers = [] → inRange s.build v = true →
    ∃ t u, hostAct (.offerInput v) s = .next t ∧ exec .input t = .next u ∧ readReg u 1 = v ∧ u.inOffers = [])

/-- 20_memory.md R47, 10_state.md R34: while the host offers nothing (`in_valid = 0`), `input` waits: IN_WAIT = 1, all else
is as before the instruction, and `in_ready = 1` once it runs out of reset. DESIGN CHOICE (log entry 6): the wait is shown
as a next state. -/
def Obligations.InputWaits : Prop :=
  ∀ s : State, s.inOffers = [] →
    ∃ t, exec .input s = .next t ∧ t = { s with inWait := true } ∧ (statusWord t).getLsbD 4 = true ∧
      inValid t = false ∧ (s.rst = false → s.run = .running → inReady t = true)

/-- 43_system_io.md R123, 20_memory.md R48: where the host accepts, `print` transfers `x[1]` exactly. -/
def Obligations.PrintEffect : Prop :=
  ∀ s : State, s.outReady = true →
    ∃ t, exec .print s = .next t ∧ t.outLog = s.outLog ++ [readReg s 1] ∧ t.pc = s.pc + 1 ∧
      t.outWait = false ∧ RegsSame s t ∧ RunSame s t

/-- 20_memory.md R48, 10_state.md R34: while the host does not accept, `print` waits: OUT_WAIT = 1, `out_valid = 1` and
`out_data` is `x[1]` once it runs out of reset, in two's complement as 20_memory.md R41 has it (PRESUMED, log entry 20).
DESIGN CHOICE (log entry 6): the wait is shown as a next state. -/
def Obligations.PrintWaits : Prop :=
  ∀ s : State, s.outReady = false →
    ∃ t, exec .print s = .next t ∧ t = { s with outWait := true } ∧ (statusWord t).getLsbD 5 = true ∧
      (s.rst = false → s.run = .running →
        outValid t = true ∧ outData t = some (twos s.build.xlen (readReg s 1)))

/-- 20_memory.md R47, R48: there is no timeout: for any number of steps a core that waits stays as it is, until the host
acts; then the next step completes. DESIGN CHOICE (log entry 6) as above. -/
def Obligations.WaitHasNoTimeout : Prop :=
  (∀ (s : State) (w : Word8) (k : Nat), Fetches s w → decode w = .instr .input → s.inOffers = [] →
    Sys2Proof.core.run (k + 1) s = .next { s with inWait := true } ∧
    (∀ (v : Int) (t : State), hostAct (.offerInput v) { s with inWait := true } = .next t →
      ∃ u, step t = .next u ∧ u.pc = s.pc + 1 ∧ u.inWait = false)) ∧
  (∀ (s : State) (w : Word8) (k : Nat), Fetches s w → decode w = .instr .print → s.outReady = false →
    Sys2Proof.core.run (k + 1) s = .next { s with outWait := true } ∧
    (∀ t : State, hostAct (.setOutReady true) { s with outWait := true } = .next t →
      ∃ u, step t = .next u ∧ u.pc = s.pc + 1 ∧ u.outWait = false ∧ u.outLog = s.outLog ++ [readReg s 1]))

/-- 43_system_io.md R125: `exit` halts and writes nothing else, not even the PC. -/
def Obligations.ExitEffect : Prop :=
  encode .exit = 0xE3 ∧
  ∀ s : State, ∃ t, exec .exit s = .next t ∧ t.run = .halted ∧ t.pc = s.pc ∧ t.cause = s.cause ∧
    RegsSame s t ∧ ChannelsSame s t ∧ HostPartSame s t

/-- 43_system_io.md R127: `empty` moves the PC by one and does nothing else; and the rule's example, a blank line followed
by `exit`. 30_encoding.md R76: with every comment marker, `empty` is what a line with no tokens after comment removal
becomes (a line of whitespace, and a line whose first token begins with the marker, said in characters too), and what a
line of the one token `empty` becomes. -/
def Obligations.EmptyEffect : Prop :=
  encode .empty = 0xE0 ∧
  (∀ (cfg : AsmConfig) (line : List Char),
    (splitTokens [] line = [] ∨ (∃ t ts, splitTokens [] line = t :: ts ∧ startsComment cfg t = true) ∨
      splitTokens [] line = [nameEmpty]) → assembleLine cfg line = .ok .empty) ∧
  (∀ (cfg : AsmConfig) (line : List Char), (∀ c ∈ line, c.toNat ∈ [32, 9, 11, 12, 13]) →
    assembleLine cfg line = .ok .empty) ∧
  (∀ (cfg : AsmConfig) (blanks tail : List Char), (∀ c ∈ blanks, c.toNat ∈ [32, 9, 11, 12, 13]) →
    isBlank cfg.mark1 = false → isBlank cfg.mark2 = false →
    assembleLine cfg (blanks ++ cfg.mark1 :: cfg.mark2 :: tail) = .ok .empty) ∧
  (∀ s : State, ∃ t, exec .empty s = .next t ∧ t.pc = s.pc + 1 ∧
    RegsSame s t ∧ RunSame s t ∧ ChannelsSame s t ∧ HostPartSame s t) ∧
  assemble AsmConfig.default (lineFeed :: nameExit) = .words [0xE0, 0xE3] ∧
  (∀ s : State, s.rst = false → s.run = .running → s.pc = 0 → s.progLen = 2 →
    Memory.read s.imem 0 = some 0xE0 → Memory.read s.imem 1 = some 0xE3 →
    ∃ t u, step s = .next t ∧ t.pc = 1 ∧ step t = .next u ∧ u.run = .halted ∧ u.pc = 1)

/-- The frame of `input` and `print` (10_state.md R21, R31): `input` changes r1, its channel, IN_WAIT and the PC; `print`
its channel, OUT_WAIT and the PC. -/
def Obligations.ChannelInstrFrame : Prop :=
  (∀ s t : State, exec .input s = .next t →
    (∀ r, r ≠ 1 → readReg t r = readReg s r) ∧ RunSame s t ∧ HostPartSame s t ∧
    t.outLog = s.outLog ∧ t.outWait = s.outWait) ∧
  (∀ s t : State, exec .print s = .next t →
    RegsSame s t ∧ RunSame s t ∧ HostPartSame s t ∧ t.inOffers = s.inOffers ∧ t.inWait = s.inWait)

/-! ### Host -/

/-- 20_memory.md R52, 70_reset_and_hazards.md R157, 93_implementation_defined.md I7 and I8: a change of the image or of
`prog_len` out of reset, an index or a length beyond `IMEM_DEPTH` (R38, R39), a release of `rst` before all `N` words are
written (R151), the withdrawal of an offer and an offer outside `[MIN, MAX]` (I14) are refused, each by its own name; in
reset the write of a word is the load. DESIGN CHOICE (log entry 14): the refusals are the model's. -/
def Obligations.HostDutiesAreRefused : Prop :=
  (∀ (s : State) (a : Nat) (w : Word8), s.rst = false → hostAct (.writeImem a w) s = .refused .imageChangedOutOfReset) ∧
  (∀ (s : State) (n : Nat), s.rst = false → hostAct (.setProgLen n) s = .refused .imageChangedOutOfReset) ∧
  (∀ s : State, s.inOffers ≠ [] → hostAct .withdrawInput s = .refused .offerWithdrawn) ∧
  (∀ (s : State) (a : Nat) (w : Word8), s.rst = true → a < s.build.imemDepth →
    ∃ t, hostAct (.writeImem a w) s = .next t ∧ Memory.read t.imem a = some w ∧
      ∀ b, b ≠ a → Memory.read t.imem b = Memory.read s.imem b) ∧
  (∀ (s : State) (a : Nat) (w : Word8), s.rst = true → s.build.imemDepth ≤ a →
    hostAct (.writeImem a w) s = .refused .beyondImemDepth) ∧
  (∀ (s : State) (n : Nat), s.rst = true → s.build.imemDepth < n →
    hostAct (.setProgLen n) s = .refused .beyondImemDepth) ∧
  (∀ (s : State) (a : Nat), s.rst = true → a < s.progLen → Memory.read s.imem a = none →
    hostAct .releaseReset s = .refused .imageIncomplete) ∧
  (∀ (s : State) (v : Int), (v < minInt s.build.xlen ∨ maxInt s.build.xlen < v) →
    hostAct (.offerInput v) s = .refused .valueNotOnPort)

/-- 70_reset_and_hazards.md R157, R150: every action that the rule lets the host take is taken, and has its effect and no
other: reset, the load while `rst = 1`, the release once all `N` words are written, the offer of any value in `[MIN, MAX]`
(in two's complement, R41; log entry 20) and the level of `out_ready`. DESIGN CHOICE (log entries 8, 9, 11): the form of
the ports in the state. -/
def Obligations.HostActionsHaveTheirEffect : Prop :=
  (∀ s : State, hostAct .assertReset s = .next { coreReset s with rst := true }) ∧
  (∀ s : State, s.rst = true → (∀ a, a < s.progLen → ∃ w, Memory.read s.imem a = some w) →
    hostAct .releaseReset s = .next { coreReset s with rst := false }) ∧
  (∀ (s : State) (n : Nat), s.rst = true → n ≤ s.build.imemDepth →
    hostAct (.setProgLen n) s = .next { s with progLen := n }) ∧
  (∀ (s : State) (a : Nat) (w : Word8), s.rst = true → a < s.build.imemDepth →
    ∃ t, hostAct (.writeImem a w) s = .next t ∧ t = { s with imem := t.imem } ∧ Memory.read t.imem a = some w ∧
      ∀ b, b ≠ a → Memory.read t.imem b = Memory.read s.imem b) ∧
  (∀ (s : State) (v : Int), 1 ≤ s.build.xlen → minInt s.build.xlen ≤ v → v ≤ maxInt s.build.xlen →
    ∃ w, hostAct (.offerInput v) s = .next { s with inOffers := s.inOffers ++ [w] } ∧
      w < 2 ^ s.build.xlen ∧ sext s.build.xlen w = v) ∧
  (∀ (s : State) (b : Bool), hostAct (.setOutReady b) s = .next { s with outReady := b })

/-- 70_reset_and_hazards.md R151: the load of any program that fits the memory succeeds from any state, and leaves the core
out of reset, RUNNING at instruction 0 with its registers 0, and the words at their indices. DESIGN CHOICE (log entries 13
and 25): the actions that make a load; the level of `out_ready` and the offers are no part of it. -/
def Obligations.LoadPlacesTheProgram : Prop :=
  ∀ (ws : List Word8) (s : State), ws.length ≤ s.build.imemDepth →
    ∃ t, hostRun (loadActions ws) s = .next t ∧ t.rst = false ∧ t.run = .running ∧ t.cause = .none ∧ t.pc = 0 ∧
      (∀ r, readReg t r = 0) ∧ t.progLen = ws.length ∧
      ∀ k, k < ws.length → Memory.read t.imem k = ws[k]?

/-- 60_exceptions.md R135: HALTED gives exit status 0, FAULTED a non-zero one and a diagnostic with the marker "Error",
which carries the source's text for PC_OUT_OF_RANGE. -/
def Obligations.ExitStatusMapping : Prop :=
  ∀ s : State,
    (s.run = .halted → exitStatus s = some 0 ∧ faultDiagnostic s = none) ∧
    (s.run = .faulted → ∃ n d, exitStatus s = some n ∧ n ≠ 0 ∧ faultDiagnostic s = some d ∧ d.marker = "Error" ∧
      (s.cause = .pcOutOfRange → d.text = "reached end of program without explicit halt")) ∧
    (s.run = .running → exitStatus s = none) ∧
    (endsWell s = true ↔ exitStatus s = some 0) ∧ (ended s = true ↔ exitStatus s ≠ none)

/-- 20_memory.md R48, R49: each value received is rendered, in order, as a signed decimal integer (which reads back as the
value) and then the line terminator, whatever its characters are (log entry 16). -/
def Obligations.OutputsRenderedInOrder : Prop :=
  (∀ v : Int, ∃ digits : List Char, renderValue v = String.ofList digits ++ Config.lineTerminator ∧
    parseSigned digits = some v) ∧
  (∀ s : State, (renderOutput s).length = s.outLog.length ∧
    ∀ (k : Nat) (v : Int), s.outLog[k]? = some v → (renderOutput s)[k]? = some (renderValue v))

/-! ### The assembler -/

/-- 30_encoding.md R75: any run of whitespace separates tokens as one blank does, whichever blank it is; whitespace at
either end of a line means nothing; and a token that begins with the comment marker is discarded with all that follows,
whatever stands before it. -/
def Obligations.WhitespaceAndCommentsDiscarded : Prop :=
  (∀ (cfg : AsmConfig) (l r run : List Char) (b : Char), run ≠ [] →
    (∀ c ∈ b :: run, c.toNat ∈ [32, 9, 11, 12, 13]) →
    assembleLine cfg (l ++ run ++ r) = assembleLine cfg (l ++ b :: r) ∧
    assembleLine cfg (run ++ l) = assembleLine cfg l ∧ assembleLine cfg (l ++ run) = assembleLine cfg l) ∧
  (∀ (cfg : AsmConfig) (l tail : List Char) (b : Char), b.toNat ∈ [32, 9, 11, 12, 13] →
    isBlank cfg.mark1 = false → isBlank cfg.mark2 = false →
    assembleLine cfg (l ++ b :: cfg.mark1 :: cfg.mark2 :: tail) = assembleLine cfg l)

/-- 30_encoding.md R86: where no line has an error, the assembler emits exactly one word per source line, in line
order; and it emits words in no other case. -/
def Obligations.OneWordPerLine : Prop :=
  ∀ (cfg : AsmConfig) (text : List Char),
    ((∀ l ∈ splitLines text, ∃ i, assembleLine cfg l = .ok i) ↔ ∃ ws, assemble cfg text = .words ws) ∧
    ∀ ws, assemble cfg text = .words ws →
      ws.length = (splitLines text).length ∧
      ∀ (k : Nat) (l : List Char), (splitLines text)[k]? = some l →
        ∃ i, assembleLine cfg l = .ok i ∧ ws[k]? = some (encode i)

/-- 30_encoding.md R83: every line is checked and every error reported, and one error anywhere means that no word is
emitted. -/
def Obligations.EveryErrorIsReported : Prop :=
  ∀ (cfg : AsmConfig) (text : List Char),
    (∀ (k : Nat) (l : List Char) (es : List (Nat × AsmError)), (splitLines text)[k]? = some l →
      assembleLine cfg l = .errors es →
      ∃ ds, assemble cfg text = .rejected ds ∧ ∀ e ∈ es, { line := k, arg := e.1, error := e.2 } ∈ ds) ∧
    (∀ ds, assemble cfg text = .rejected ds → ds ≠ [] ∧
      ∀ d ∈ ds, ∃ l es, (splitLines text)[d.line]? = some l ∧ assembleLine cfg l = .errors es ∧
        (d.arg, d.error) ∈ es)

/-- 30_encoding.md R74: the source lines, joined by LF, are the text, less a final LF; no line holds an LF. -/
def Obligations.LinesSplitAtLineFeed : Prop :=
  ∀ text : List Char,
    (∀ l ∈ splitLines text, lineFeed ∉ l) ∧
    (splitLines text = [] ↔ text = []) ∧
    (text ≠ [] → text = List.intercalate [lineFeed] (splitLines text) ∨
      text = List.intercalate [lineFeed] (splitLines text) ++ [lineFeed]) ∧
    (∀ (a b : List Char), text = a ++ lineFeed :: b → lineFeed ∉ a → splitLines text = a :: splitLines b)

/-- 30_encoding.md R79, R82: of all integers written in decimal, exactly those in [-16, 15] are accepted as a jump
offset, and each is read as itself. -/
def Obligations.OffsetLiteralRange : Prop :=
  ∀ v : Int, parseSigned (showInt v) = some v ∧
    (-16 ≤ v ∧ v ≤ 15 → parseOffset (showInt v) = .ok v) ∧
    (v < -16 ∨ 15 < v → parseOffset (showInt v) = .error .offsetOutOfRange)

/-- 30_encoding.md R88: the printed text of a legal word assembles back to that one word (with the default comment
marker), and an illegal word has no text. -/
def Obligations.AssembleInvertsDisassemble : Prop :=
  (∀ (w : Word8) (text : List Char), disassemble w = some text → assemble AsmConfig.default text = .words [w]) ∧
  (∀ w : Word8, disassemble w = none ↔ ∃ why, decode w = .illegal why)

/-- 40_executor.md R91, 60_exceptions.md R133: whatever the text, the comment marker, the inputs and the number of steps,
a program that the assembler produced never faults with ILLEGAL_INSTRUCTION. -/
def Obligations.AssembledNeverIllegal : Prop :=
  ∀ (cfg : AsmConfig) (text : List Char) (ws : List Word8) (s t u : State) (k : Nat),
    assemble cfg text = .words ws → bootText cfg text s = .next t → Sys2Proof.core.run k t = .next u →
    u.cause ≠ .illegalInstruction

/-- 70_reset_and_hazards.md R152: text that the assembler rejects never leaves reset: no number of steps runs an
instruction. -/
def Obligations.RejectedTextNeverRuns : Prop :=
  ∀ (cfg : AsmConfig) (text : List Char) (ds : List Diagnostic) (s t u : State) (k : Nat),
    assemble cfg text = .rejected ds → bootText cfg text s = .next t → Sys2Proof.core.run k t = .next u →
    u = t ∧ u.rst = true ∧ u.pc = 0 ∧ u.outLog = s.outLog ∧ u.inOffers = s.inOffers ∧ u.imem = s.imem
end

