-- ==== Sys2Proof/Laws/Assembler.lean ====
section
/-! SUPPORT. What the tokeniser and the comment removal do with whitespace and with the comment marker, said once
(30_encoding.md R75, R76). -/

namespace Sys2Proof.Machine

/-- Whitespace, as the list of its character codes. -/
theorem isBlank_iff (c : Char) : isBlank c = true ↔ c.toNat ∈ [32, 9, 11, 12, 13] := by
  simp [isBlank, or_assoc]

/-- A blank ends the token under way: the tokens before it and those after it do not depend on each other. -/
theorem splitTokens_append_blank (l r cur : List Char) {b : Char} (hb : isBlank b = true) :
    splitTokens cur (l ++ b :: r) = splitTokens cur l ++ splitTokens [] r := by
  induction l generalizing cur with
  | nil =>
    by_cases hc : cur = []
    · simp [splitTokens, hb, hc]
    · simp [splitTokens, hb, hc]
  | cons c cs ih =>
    simp only [List.cons_append, splitTokens]
    by_cases h : isBlank c = true
    · by_cases hc : cur = []
      · simp only [h, hc, if_true]
        exact ih []
      · simp only [h, hc, if_true, if_false, List.cons_append]
        rw [ih []]
    · simp only [h, if_false, Bool.false_eq_true]
      exact ih _

/-- Whitespace alone has no tokens. -/
theorem splitTokens_blanks {run : List Char} (h : ∀ c ∈ run, isBlank c = true) : splitTokens [] run = [] := by
  induction run with
  | nil => rfl
  | cons c cs ih =>
    simp only [splitTokens, h c List.mem_cons_self, if_true]
    exact ih fun d hd => h d (List.mem_cons_of_mem c hd)

/-- Whitespace at the beginning of a text gives no token. -/
theorem splitTokens_blanks_append {run : List Char} (h : ∀ c ∈ run, isBlank c = true) (r : List Char) :
    splitTokens [] (run ++ r) = splitTokens [] r := by
  induction run with
  | nil => rfl
  | cons c cs ih =>
    simp only [List.cons_append, splitTokens, h c List.mem_cons_self, if_true]
    exact ih fun d hd => h d (List.mem_cons_of_mem c hd)

/-- A token under way is the beginning of the first token. -/
theorem splitTokens_cur {cur : List Char} (hc : cur ≠ []) (l : List Char) :
    ∃ more ts, splitTokens cur l = (cur ++ more) :: ts := by
  induction l generalizing cur with
  | nil => exact ⟨[], [], by simp [splitTokens, hc]⟩
  | cons c cs ih =>
    by_cases h : isBlank c = true
    · exact ⟨[], splitTokens [] cs, by simp [splitTokens, h, hc]⟩
    · obtain ⟨more, ts, e⟩ := ih (cur := cur ++ [c]) (by simp)
      refine ⟨c :: more, ts, ?_⟩
      simp only [splitTokens, h, Bool.false_eq_true, if_false]
      rw [e, List.append_assoc]
      rfl

/-- Where a marker that holds no whitespace begins a text, it begins the first token. -/
theorem splitTokens_marker {cfg : AsmConfig} (h1 : isBlank cfg.mark1 = false) (h2 : isBlank cfg.mark2 = false)
    (tail : List Char) :
    ∃ t ts, splitTokens [] (cfg.mark1 :: cfg.mark2 :: tail) = t :: ts ∧ startsComment cfg t = true := by
  obtain ⟨more, ts, e⟩ := splitTokens_cur (cur := [cfg.mark1, cfg.mark2]) (by simp) tail
  refine ⟨_, ts, ?_, show startsComment cfg ([cfg.mark1, cfg.mark2] ++ more) = true by simp [startsComment]⟩
  simp only [splitTokens, h1, h2, Bool.false_eq_true, if_false, List.nil_append]
  exact e

/-- A token that begins with the marker discards itself and all later tokens. -/
theorem dropComment_append {cfg : AsmConfig} (ts : List (List Char)) {t : List Char} (rest : List (List Char))
    (h : startsComment cfg t = true) : dropComment cfg (ts ++ t :: rest) = dropComment cfg ts := by
  induction ts with
  | nil => simp [dropComment, h]
  | cons u us ih =>
    simp only [List.cons_append, dropComment]
    rw [ih]

/-- A line becomes what its tokens become. -/
theorem assembleLine_congr {cfg : AsmConfig} {l m : List Char}
    (h : dropComment cfg (splitTokens [] l) = dropComment cfg (splitTokens [] m)) :
    assembleLine cfg l = assembleLine cfg m := by
  unfold assembleLine loadLine
  rw [h]

end Sys2Proof.Machine
end

