-- ==== Sys2Proof/Laws/Decode.lean ====
section
/-! SUPPORT. What the decoder can answer, said once. -/

namespace Sys2Proof

/-- A format R word decodes to its instruction with a destination other than 0, or to ILLEGAL. -/
theorem decodeR_cases {mk : RegIdx → RegIdx → Imm1 → Instr} {w : Word8} {i : Instr}
    (h : decodeR mk w = .instr i) :
    rdField w ≠ 0#2 ∧ i = mk (rdField w).toFin (rsField w).toFin (immField w).toFin := by
  unfold decodeR at h
  split at h
  · cases h
  · exact ⟨‹_›, (Decoded.instr.inj h).symm⟩

/-- The system group's four words. -/
theorem decodeS_cases {w : Word8} {i : Instr} (h : decodeS w = .instr i) :
    zeroField w = 0#3 ∧
      ((fnField w = 0#2 ∧ i = .empty) ∨ (fnField w = 1#2 ∧ i = .input) ∨ (fnField w = 2#2 ∧ i = .print) ∨
        (fnField w ≠ 0#2 ∧ fnField w ≠ 1#2 ∧ fnField w ≠ 2#2 ∧ i = .exit)) := by
  unfold decodeS at h
  split at h
  · cases h
  · rename_i hz
    refine ⟨by simpa using hz, ?_⟩
    split at h
    · exact .inl ⟨‹_›, (Decoded.instr.inj h).symm⟩
    · split at h
      · exact .inr (.inl ⟨‹_›, (Decoded.instr.inj h).symm⟩)
      · split at h
        · exact .inr (.inr (.inl ⟨‹_›, (Decoded.instr.inj h).symm⟩))
        · exact .inr (.inr (.inr ⟨‹_›, ‹_›, ‹_›, (Decoded.instr.inj h).symm⟩))

/-- What a legal word is, by its major opcode. -/
theorem decode_cases {w : Word8} {i : Instr} (h : decode w = .instr i) :
    (opField w = 0#3 ∧ decodeR .add w = .instr i) ∨ (opField w = 1#3 ∧ decodeR .sub w = .instr i) ∨
    (opField w = 2#3 ∧ decodeR .set w = .instr i) ∨ (opField w = 3#3 ∧ decodeR .jeq w = .instr i) ∨
    (opField w = 4#3 ∧ i = .j (sext 5 (offField w).toNat)) ∨ (opField w = 7#3 ∧ decodeS w = .instr i) := by
  unfold decode at h
  by_cases h0 : opField w = 0#3
  · simp only [h0, if_true] at h
    exact .inl ⟨h0, h⟩
  by_cases h1 : opField w = 1#3
  · simp only [h1, if_true] at h
    exact .inr (.inl ⟨h1, h⟩)
  by_cases h2 : opField w = 2#3
  · simp only [h2, if_true] at h
    exact .inr (.inr (.inl ⟨h2, h⟩))
  by_cases h3 : opField w = 3#3
  · simp only [h3, if_true] at h
    exact .inr (.inr (.inr (.inl ⟨h3, h⟩)))
  by_cases h4 : opField w = 4#3
  · simp only [h4, if_true] at h
    exact .inr (.inr (.inr (.inr (.inl ⟨h4, (Decoded.instr.inj h).symm⟩))))
  by_cases h7 : opField w = 7#3
  · simp only [h7, if_true] at h
    exact .inr (.inr (.inr (.inr (.inr ⟨h7, h⟩))))
  · simp only [h0, h1, h2, h3, h4, h7, if_false] at h
    cases h

/-- A five-bit field read as a signed number is a jump offset in range. -/
theorem offsetOk_sext (o : BitVec 5) : offsetOk (sext 5 o.toNat) = true := by
  revert o
  decide

/-- A legal word decodes to a well-formed instruction. -/
theorem decode_wf {w : Word8} {i : Instr} (h : decode w = .instr i) : i.wf = true := by
  have hd : ∀ f : BitVec 2, f ≠ 0#2 → destOk f.toFin = true := by decide
  rcases decode_cases h with ⟨-, h⟩ | ⟨-, h⟩ | ⟨-, h⟩ | ⟨-, h⟩ | ⟨-, rfl⟩ | ⟨-, h⟩
  · obtain ⟨hr, rfl⟩ := decodeR_cases h
    exact hd _ hr
  · obtain ⟨hr, rfl⟩ := decodeR_cases h
    exact hd _ hr
  · obtain ⟨hr, rfl⟩ := decodeR_cases h
    exact hd _ hr
  · obtain ⟨hr, rfl⟩ := decodeR_cases h
    exact hd _ hr
  · exact offsetOk_sext _
  · obtain ⟨-, ⟨-, rfl⟩ | ⟨-, rfl⟩ | ⟨-, rfl⟩ | ⟨-, -, -, rfl⟩⟩ := decodeS_cases h <;> rfl

end Sys2Proof
end

