-- ==== Sys2Proof/Laws/Memory.lean ====
section
/-! SUPPORT. The laws of the instruction memory: a read after a write, and that every operation keeps the canonical
form. -/

namespace Sys2Proof.Machine

@[simp] theorem Memory.read_nil (a : Nat) : Memory.read [] a = none := rfl

/-- A write sets its own index and leaves every other as it was. -/
theorem Memory.read_write (m : Memory) (a b : Nat) (w : Word8) :
    Memory.read (Memory.write m a w) b = if b = a then some w else Memory.read m b := by
  induction m with
  | nil => simp [Memory.write, Memory.read]
  | cons c m ih =>
    obtain ⟨k, v⟩ := c
    rcases lt_trichotomy a k with h | h | h
    · simp [Memory.write, Memory.read, h]
    · subst h
      by_cases hb : b = a <;> simp [Memory.write, Memory.read, hb]
    · have h1 : ¬ a < k := by omega
      have h2 : a ≠ k := by omega
      simp only [Memory.write, h1, h2, if_false, Memory.read, ih]
      by_cases hb : b = k
      · subst hb
        simp [Ne.symm h2]
      · simp [hb]

/-- Every listed index of a write's result is the written one or was listed before. -/
theorem Memory.write_all (m : Memory) (a k : Nat) (w : Word8) (hm : (m.all fun c => decide (k < c.1)) = true)
    (ha : k < a) : ((Memory.write m a w).all fun c => decide (k < c.1)) = true := by
  induction m with
  | nil => simpa [Memory.write] using ha
  | cons c m ih =>
    obtain ⟨b, v⟩ := c
    simp only [List.all_cons, Bool.and_eq_true, decide_eq_true_eq] at hm
    unfold Memory.write
    split
    · simp [ha, hm.1]
      simpa using hm.2
    · split
      · simpa [ha] using hm.2
      · simp only [List.all_cons, Bool.and_eq_true, decide_eq_true_eq]
        exact ⟨hm.1, ih hm.2⟩

/-- A smaller bound than every listed index is a bound too. -/
theorem Memory.all_lt_mono {m : Memory} {j k : Nat} (hm : (m.all fun c => decide (k < c.1)) = true) (h : j < k) :
    (m.all fun c => decide (j < c.1)) = true := by
  simp only [List.all_eq_true, decide_eq_true_eq] at hm ⊢
  intro c hc
  exact lt_trans h (hm c hc)

/-- A write keeps the canonical form. -/
theorem Memory.wf_write (m : Memory) (a : Nat) (w : Word8) (hm : Memory.wf m = true) :
    Memory.wf (Memory.write m a w) = true := by
  induction m with
  | nil => rfl
  | cons c m ih =>
    obtain ⟨b, v⟩ := c
    simp only [Memory.wf, Bool.and_eq_true] at hm
    unfold Memory.write
    split
    · rename_i h
      simp only [Memory.wf, List.all_cons, Bool.and_eq_true, decide_eq_true_eq]
      exact ⟨⟨h, Memory.all_lt_mono hm.1 h⟩, hm⟩
    · split
      · rename_i h
        subst h
        simp only [Memory.wf, Bool.and_eq_true]
        exact hm
      · simp only [Memory.wf, Bool.and_eq_true]
        exact ⟨Memory.write_all m a b w hm.1 (by omega), ih hm.2⟩

/-- The state after reset lists nothing. -/
theorem Memory.wf_reset : Memory.wf State.reset.imem = true := rfl

/-- The image is complete when every index below `N` is written. -/
theorem imageLoaded_iff (s : State) :
    imageLoaded s = true ↔ ∀ a, a < s.progLen → (Memory.read s.imem a).isSome = true := by
  simp [imageLoaded]

end Sys2Proof.Machine
end

