-- ==== Sys2Proof/Laws/State.lean ====
section
/-! SUPPORT. One lemma per field per named update of the state, so that no proof unfolds a record update. -/

namespace Sys2Proof.Machine

/-! `advance` -/

@[simp] theorem advance_build (k : Int) (s : State) : (advance k s).build = s.build := rfl
@[simp] theorem advance_x1 (k : Int) (s : State) : (advance k s).x1 = s.x1 := rfl
@[simp] theorem advance_x2 (k : Int) (s : State) : (advance k s).x2 = s.x2 := rfl
@[simp] theorem advance_x3 (k : Int) (s : State) : (advance k s).x3 = s.x3 := rfl
@[simp] theorem advance_pc (k : Int) (s : State) : (advance k s).pc = s.pc + k + 1 := rfl
@[simp] theorem advance_run (k : Int) (s : State) : (advance k s).run = s.run := rfl
@[simp] theorem advance_cause (k : Int) (s : State) : (advance k s).cause = s.cause := rfl
@[simp] theorem advance_inWait (k : Int) (s : State) : (advance k s).inWait = s.inWait := rfl
@[simp] theorem advance_outWait (k : Int) (s : State) : (advance k s).outWait = s.outWait := rfl
@[simp] theorem advance_imem (k : Int) (s : State) : (advance k s).imem = s.imem := rfl
@[simp] theorem advance_progLen (k : Int) (s : State) : (advance k s).progLen = s.progLen := rfl
@[simp] theorem advance_rst (k : Int) (s : State) : (advance k s).rst = s.rst := rfl
@[simp] theorem advance_inOffers (k : Int) (s : State) : (advance k s).inOffers = s.inOffers := rfl
@[simp] theorem advance_outReady (k : Int) (s : State) : (advance k s).outReady = s.outReady := rfl
@[simp] theorem advance_outLog (k : Int) (s : State) : (advance k s).outLog = s.outLog := rfl

/-! `enterFault` -/

@[simp] theorem enterFault_build (c : Cause) (s : State) : (enterFault c s).build = s.build := rfl
@[simp] theorem enterFault_x1 (c : Cause) (s : State) : (enterFault c s).x1 = s.x1 := rfl
@[simp] theorem enterFault_x2 (c : Cause) (s : State) : (enterFault c s).x2 = s.x2 := rfl
@[simp] theorem enterFault_x3 (c : Cause) (s : State) : (enterFault c s).x3 = s.x3 := rfl
@[simp] theorem enterFault_pc (c : Cause) (s : State) : (enterFault c s).pc = s.pc := rfl
@[simp] theorem enterFault_run (c : Cause) (s : State) : (enterFault c s).run = .faulted := rfl
@[simp] theorem enterFault_cause (c : Cause) (s : State) : (enterFault c s).cause = c := rfl
@[simp] theorem enterFault_inWait (c : Cause) (s : State) : (enterFault c s).inWait = s.inWait := rfl
@[simp] theorem enterFault_outWait (c : Cause) (s : State) : (enterFault c s).outWait = s.outWait := rfl
@[simp] theorem enterFault_imem (c : Cause) (s : State) : (enterFault c s).imem = s.imem := rfl
@[simp] theorem enterFault_progLen (c : Cause) (s : State) : (enterFault c s).progLen = s.progLen := rfl
@[simp] theorem enterFault_rst (c : Cause) (s : State) : (enterFault c s).rst = s.rst := rfl
@[simp] theorem enterFault_inOffers (c : Cause) (s : State) : (enterFault c s).inOffers = s.inOffers := rfl
@[simp] theorem enterFault_outReady (c : Cause) (s : State) : (enterFault c s).outReady = s.outReady := rfl
@[simp] theorem enterFault_outLog (c : Cause) (s : State) : (enterFault c s).outLog = s.outLog := rfl

/-! `halt` -/

@[simp] theorem halt_build (s : State) : (halt s).build = s.build := rfl
@[simp] theorem halt_x1 (s : State) : (halt s).x1 = s.x1 := rfl
@[simp] theorem halt_x2 (s : State) : (halt s).x2 = s.x2 := rfl
@[simp] theorem halt_x3 (s : State) : (halt s).x3 = s.x3 := rfl
@[simp] theorem halt_pc (s : State) : (halt s).pc = s.pc := rfl
@[simp] theorem halt_run (s : State) : (halt s).run = .halted := rfl
@[simp] theorem halt_cause (s : State) : (halt s).cause = s.cause := rfl
@[simp] theorem halt_inWait (s : State) : (halt s).inWait = s.inWait := rfl
@[simp] theorem halt_outWait (s : State) : (halt s).outWait = s.outWait := rfl
@[simp] theorem halt_imem (s : State) : (halt s).imem = s.imem := rfl
@[simp] theorem halt_progLen (s : State) : (halt s).progLen = s.progLen := rfl
@[simp] theorem halt_rst (s : State) : (halt s).rst = s.rst := rfl
@[simp] theorem halt_inOffers (s : State) : (halt s).inOffers = s.inOffers := rfl
@[simp] theorem halt_outReady (s : State) : (halt s).outReady = s.outReady := rfl
@[simp] theorem halt_outLog (s : State) : (halt s).outLog = s.outLog := rfl

/-! `coreReset` -/

@[simp] theorem coreReset_build (s : State) : (coreReset s).build = s.build := rfl
@[simp] theorem coreReset_x1 (s : State) : (coreReset s).x1 = 0 := rfl
@[simp] theorem coreReset_x2 (s : State) : (coreReset s).x2 = 0 := rfl
@[simp] theorem coreReset_x3 (s : State) : (coreReset s).x3 = 0 := rfl
@[simp] theorem coreReset_pc (s : State) : (coreReset s).pc = 0 := rfl
@[simp] theorem coreReset_run (s : State) : (coreReset s).run = .running := rfl
@[simp] theorem coreReset_cause (s : State) : (coreReset s).cause = .none := rfl
@[simp] theorem coreReset_inWait (s : State) : (coreReset s).inWait = false := rfl
@[simp] theorem coreReset_outWait (s : State) : (coreReset s).outWait = false := rfl
@[simp] theorem coreReset_imem (s : State) : (coreReset s).imem = s.imem := rfl
@[simp] theorem coreReset_progLen (s : State) : (coreReset s).progLen = s.progLen := rfl
@[simp] theorem coreReset_rst (s : State) : (coreReset s).rst = s.rst := rfl
@[simp] theorem coreReset_inOffers (s : State) : (coreReset s).inOffers = s.inOffers := rfl
@[simp] theorem coreReset_outReady (s : State) : (coreReset s).outReady = s.outReady := rfl
@[simp] theorem coreReset_outLog (s : State) : (coreReset s).outLog = s.outLog := rfl

/-! `waitInput` -/

@[simp] theorem waitInput_build (s : State) : (waitInput s).build = s.build := rfl
@[simp] theorem waitInput_x1 (s : State) : (waitInput s).x1 = s.x1 := rfl
@[simp] theorem waitInput_x2 (s : State) : (waitInput s).x2 = s.x2 := rfl
@[simp] theorem waitInput_x3 (s : State) : (waitInput s).x3 = s.x3 := rfl
@[simp] theorem waitInput_pc (s : State) : (waitInput s).pc = s.pc := rfl
@[simp] theorem waitInput_run (s : State) : (waitInput s).run = s.run := rfl
@[simp] theorem waitInput_cause (s : State) : (waitInput s).cause = s.cause := rfl
@[simp] theorem waitInput_inWait (s : State) : (waitInput s).inWait = true := rfl
@[simp] theorem waitInput_outWait (s : State) : (waitInput s).outWait = s.outWait := rfl
@[simp] theorem waitInput_imem (s : State) : (waitInput s).imem = s.imem := rfl
@[simp] theorem waitInput_progLen (s : State) : (waitInput s).progLen = s.progLen := rfl
@[simp] theorem waitInput_rst (s : State) : (waitInput s).rst = s.rst := rfl
@[simp] theorem waitInput_inOffers (s : State) : (waitInput s).inOffers = s.inOffers := rfl
@[simp] theorem waitInput_outReady (s : State) : (waitInput s).outReady = s.outReady := rfl
@[simp] theorem waitInput_outLog (s : State) : (waitInput s).outLog = s.outLog := rfl

/-! `waitOutput` -/

@[simp] theorem waitOutput_build (s : State) : (waitOutput s).build = s.build := rfl
@[simp] theorem waitOutput_x1 (s : State) : (waitOutput s).x1 = s.x1 := rfl
@[simp] theorem waitOutput_x2 (s : State) : (waitOutput s).x2 = s.x2 := rfl
@[simp] theorem waitOutput_x3 (s : State) : (waitOutput s).x3 = s.x3 := rfl
@[simp] theorem waitOutput_pc (s : State) : (waitOutput s).pc = s.pc := rfl
@[simp] theorem waitOutput_run (s : State) : (waitOutput s).run = s.run := rfl
@[simp] theorem waitOutput_cause (s : State) : (waitOutput s).cause = s.cause := rfl
@[simp] theorem waitOutput_inWait (s : State) : (waitOutput s).inWait = s.inWait := rfl
@[simp] theorem waitOutput_outWait (s : State) : (waitOutput s).outWait = true := rfl
@[simp] theorem waitOutput_imem (s : State) : (waitOutput s).imem = s.imem := rfl
@[simp] theorem waitOutput_progLen (s : State) : (waitOutput s).progLen = s.progLen := rfl
@[simp] theorem waitOutput_rst (s : State) : (waitOutput s).rst = s.rst := rfl
@[simp] theorem waitOutput_inOffers (s : State) : (waitOutput s).inOffers = s.inOffers := rfl
@[simp] theorem waitOutput_outReady (s : State) : (waitOutput s).outReady = s.outReady := rfl
@[simp] theorem waitOutput_outLog (s : State) : (waitOutput s).outLog = s.outLog := rfl

/-! `writeReg`: only a register cell can change -/

@[simp] theorem writeReg_build (r : RegIdx) (v : Int) (s : State) : (writeReg r v s).build = s.build := by
  fin_cases r <;> rfl
@[simp] theorem writeReg_x1 (r : RegIdx) (v : Int) (s : State) :
    (writeReg r v s).x1 = if r = 1 then v else s.x1 := by
  fin_cases r <;> rfl
@[simp] theorem writeReg_x2 (r : RegIdx) (v : Int) (s : State) :
    (writeReg r v s).x2 = if r = 2 then v else s.x2 := by
  fin_cases r <;> rfl
@[simp] theorem writeReg_x3 (r : RegIdx) (v : Int) (s : State) :
    (writeReg r v s).x3 = if r = 3 then v else s.x3 := by
  fin_cases r <;> rfl
@[simp] theorem writeReg_pc (r : RegIdx) (v : Int) (s : State) : (writeReg r v s).pc = s.pc := by
  fin_cases r <;> rfl
@[simp] theorem writeReg_run (r : RegIdx) (v : Int) (s : State) : (writeReg r v s).run = s.run := by
  fin_cases r <;> rfl
@[simp] theorem writeReg_cause (r : RegIdx) (v : Int) (s : State) : (writeReg r v s).cause = s.cause := by
  fin_cases r <;> rfl
@[simp] theorem writeReg_inWait (r : RegIdx) (v : Int) (s : State) : (writeReg r v s).inWait = s.inWait := by
  fin_cases r <;> rfl
@[simp] theorem writeReg_outWait (r : RegIdx) (v : Int) (s : State) : (writeReg r v s).outWait = s.outWait := by
  fin_cases r <;> rfl
@[simp] theorem writeReg_imem (r : RegIdx) (v : Int) (s : State) : (writeReg r v s).imem = s.imem := by
  fin_cases r <;> rfl
@[simp] theorem writeReg_progLen (r : RegIdx) (v : Int) (s : State) : (writeReg r v s).progLen = s.progLen := by
  fin_cases r <;> rfl
@[simp] theorem writeReg_rst (r : RegIdx) (v : Int) (s : State) : (writeReg r v s).rst = s.rst := by
  fin_cases r <;> rfl
@[simp] theorem writeReg_inOffers (r : RegIdx) (v : Int) (s : State) : (writeReg r v s).inOffers = s.inOffers := by
  fin_cases r <;> rfl
@[simp] theorem writeReg_outReady (r : RegIdx) (v : Int) (s : State) : (writeReg r v s).outReady = s.outReady := by
  fin_cases r <;> rfl
@[simp] theorem writeReg_outLog (r : RegIdx) (v : Int) (s : State) : (writeReg r v s).outLog = s.outLog := by
  fin_cases r <;> rfl

/-! `State.reset` -/

@[simp] theorem coreReset_reset : coreReset State.reset = State.reset := rfl
@[simp] theorem coreReset_coreReset (s : State) : coreReset (coreReset s) = coreReset s := rfl

end Sys2Proof.Machine
end

