-- ==== Sys2Proof/Laws/Ops.lean ====
section
/-! SUPPORT. What the shared operations over registers, the ALU, the channels and the fetch can do, said once. -/

namespace Sys2Proof.Machine

/-! ### Registers -/

@[simp] theorem readReg_zero (s : State) : readReg s 0 = 0 := rfl
@[simp] theorem readReg_one (s : State) : readReg s 1 = s.x1 := rfl
@[simp] theorem readReg_two (s : State) : readReg s 2 = s.x2 := rfl
@[simp] theorem readReg_three (s : State) : readReg s 3 = s.x3 := rfl

/-- Two states with the same cells read the same registers. -/
theorem readReg_congr {s t : State} (h1 : t.x1 = s.x1) (h2 : t.x2 = s.x2) (h3 : t.x3 = s.x3) (r : RegIdx) :
    readReg t r = readReg s r := by
  simp only [readReg, h1, h2, h3]

theorem readReg_advance (k : Int) (s : State) (r : RegIdx) : readReg (advance k s) r = readReg s r := rfl
theorem readReg_enterFault (c : Cause) (s : State) (r : RegIdx) : readReg (enterFault c s) r = readReg s r := rfl
theorem readReg_halt (s : State) (r : RegIdx) : readReg (halt s) r = readReg s r := rfl
theorem readReg_waitInput (s : State) (r : RegIdx) : readReg (waitInput s) r = readReg s r := rfl
theorem readReg_waitOutput (s : State) (r : RegIdx) : readReg (waitOutput s) r = readReg s r := rfl

theorem readReg_coreReset (s : State) (r : RegIdx) : readReg (coreReset s) r = 0 := by
  fin_cases r <;> rfl

/-- A write sets its own register, unless that is r0, and leaves every other as it was. -/
theorem readReg_writeReg (r q : RegIdx) (v : Int) (s : State) :
    readReg (writeReg r v s) q = if q = r ∧ r ≠ 0 then v else readReg s q := by
  fin_cases r <;> fin_cases q <;> rfl

/-- Writing back what a register holds changes nothing. -/
theorem writeReg_readReg (r : RegIdx) (s : State) : writeReg r (readReg s r) s = s := by
  fin_cases r <;> rfl

/-- Of two writes to one register the later one counts. -/
theorem writeReg_writeReg (r : RegIdx) (u v : Int) (s : State) :
    writeReg r v (writeReg r u s) = writeReg r v s := by
  fin_cases r <;> rfl

/-! ### The ALU -/

theorem inRange_iff (b : Build) (v : Int) : inRange b v = true ↔ minInt b.xlen ≤ v ∧ v ≤ maxInt b.xlen := by
  simp [inRange]

theorem inRange_false_iff (b : Build) (v : Int) : inRange b v = false ↔ v < minInt b.xlen ∨ maxInt b.xlen < v := by
  rw [← Bool.not_eq_true, inRange_iff]
  omega

theorem checked_of_inRange {b : Build} {v : Int} (h : inRange b v = true) : checked b v = some v := by
  simp [checked, h]

theorem checked_of_not_inRange {b : Build} {v : Int} (h : inRange b v = false) : checked b v = none := by
  simp [checked, h]

/-- What `checked` lets through is the value itself, and in range. -/
theorem checked_eq_some {b : Build} {v u : Int} (h : checked b v = some u) : u = v ∧ inRange b v = true := by
  unfold checked at h
  split at h
  · exact ⟨(Option.some.inj h).symm, ‹_›⟩
  · cases h

/-- `add`'s checks pass exactly for two sums in range, and give the exact sum. -/
theorem aluAdd_eq_some_iff {b : Build} {x y m u : Int} :
    aluAdd b x y m = some u ↔ inRange b (x + y) = true ∧ inRange b (x + y + m) = true ∧ u = x + y + m := by
  unfold aluAdd checked
  by_cases h1 : inRange b (x + y) = true <;> by_cases h2 : inRange b (x + y + m) = true <;> simp [h1, h2, eq_comm]

/-- `sub`'s checks pass exactly for two differences in range, and give the exact difference. -/
theorem aluSub_eq_some_iff {b : Build} {x y m u : Int} :
    aluSub b x y m = some u ↔ inRange b (x - y) = true ∧ inRange b (x - y - m) = true ∧ u = x - y - m := by
  unfold aluSub checked
  by_cases h1 : inRange b (x - y) = true <;> by_cases h2 : inRange b (x - y - m) = true <;> simp [h1, h2, eq_comm]

/-- Zero is in range at every width. -/
theorem inRange_zero (b : Build) : inRange b 0 = true := by
  have h : 0 < 2 ^ (b.xlen - 1) := Nat.pos_of_ne_zero (by positivity)
  rw [inRange_iff, minInt, maxInt]
  omega

/-- `sext` gives a value of the width it reads. -/
theorem inRange_sext (b : Build) (w : Nat) (hb : 1 ≤ b.xlen) : inRange b (sext b.xlen w) = true := by
  have hp : 2 ^ b.xlen = 2 * 2 ^ (b.xlen - 1) := by
    rw [← Nat.pow_succ', Nat.succ_eq_add_one, Nat.sub_add_cancel hb]
  have hlt : w % 2 ^ b.xlen < 2 ^ b.xlen := Nat.mod_lt _ (by positivity)
  rw [inRange_iff, minInt, maxInt]
  unfold sext
  dsimp only
  split <;> omega

/-- An integer that fits `n` bits comes back from its two's-complement field. -/
theorem sext_twos_of_fits {n : Nat} {v : Int} (hn : 1 ≤ n) (hlo : minInt n ≤ v) (hhi : v ≤ maxInt n) :
    sext n (twos n v) = v := by
  have hp : 2 ^ n = 2 * 2 ^ (n - 1) := by
    rw [← Nat.pow_succ', Nat.succ_eq_add_one, Nat.sub_add_cancel hn]
  have hpos : 0 < 2 ^ (n - 1) := by positivity
  rw [minInt] at hlo
  rw [maxInt] at hhi
  unfold sext twos
  generalize 2 ^ (n - 1) = p at *
  rw [hp]
  dsimp only
  have hmod : (v % ((2 * p : Nat) : Int)).toNat % (2 * p) = (v % ((2 * p : Nat) : Int)).toNat := by
    apply Nat.mod_eq_of_lt
    have := Int.emod_lt_of_pos v (show (0 : Int) < ((2 * p : Nat) : Int) by omega)
    omega
  rw [hmod]
  rcases lt_or_ge v 0 with h | h
  · have : v % ((2 * p : Nat) : Int) = v + ((2 * p : Nat) : Int) := by
      rw [← Int.add_emod_right, Int.emod_eq_of_lt] <;> omega
    rw [this]
    split <;> omega
  · have : v % ((2 * p : Nat) : Int) = v := Int.emod_eq_of_lt h (by omega)
    rw [this]
    split <;> omega

/-- A value in range comes back from its two's-complement word. -/
theorem sext_twos (b : Build) (v : Int) (hb : 1 ≤ b.xlen) (hv : inRange b v = true) :
    sext b.xlen (twos b.xlen v) = v :=
  sext_twos_of_fits hb ((inRange_iff b v).1 hv).1 ((inRange_iff b v).1 hv).2

/-- The word on a port fits its width. -/
theorem twos_lt (n : Nat) (v : Int) : twos n v < 2 ^ n := by
  have hpos : (0 : Int) < ((2 ^ n : Nat) : Int) := by positivity
  have := Int.emod_lt_of_pos v hpos
  unfold twos
  omega

/-! ### The fault entry and the PC -/

/-- The fault entry as 60_exceptions.md R131 has it. -/
theorem faultEntered_enterFault (c : Cause) (s : State) : FaultEntered c s (enterFault c s) :=
  ⟨rfl, rfl, rfl, fun _ => rfl, ⟨rfl, rfl, rfl, rfl⟩, ⟨rfl, fun _ => rfl, rfl, rfl, rfl⟩⟩

/-- The immediate is 0 or 1. -/
theorem immValue_cases (imm : Imm1) : (imm = 0 ∧ immValue imm = 0) ∨ (imm = 1 ∧ immValue imm = 1) := by
  revert imm
  decide

/-- `jeq`'s own effect is 0 or 1. -/
theorem jeqEffect_bounds (eq : Bool) (imm : Imm1) : 0 ≤ jeqEffect eq imm ∧ jeqEffect eq imm ≤ 1 := by
  revert eq imm
  decide

/-! ### Arithmetic's common end -/

/-- What `writeResult` can do: the fault entry, or the write and the PC's advance. -/
theorem writeResult_cases {rd : RegIdx} {r : Option Int} {s t : State} (h : writeResult rd r s = .next t) :
    (r = none ∧ t = enterFault .arithOverflow s) ∨ ∃ v, r = some v ∧ t = advance 0 (writeReg rd v s) := by
  cases r with
  | none => exact .inl ⟨rfl, (Host.Outcome.next.inj h).symm⟩
  | some v => exact .inr ⟨v, rfl, (Host.Outcome.next.inj h).symm⟩

/-! ### Channels -/

theorem inRead_nil {s : State} (h : s.inOffers = []) : inRead s = none := by
  simp [inRead, h]

theorem inRead_cons {s : State} {w : Nat} {rest : List Nat} (h : s.inOffers = w :: rest) :
    inRead s = some (sext s.build.xlen w, { s with inOffers := rest, inWait := false }) := by
  simp [inRead, h]

theorem outWrite_ready {s : State} (v : Int) (h : s.outReady = true) :
    outWrite v s = some { s with outLog := s.outLog ++ [v], outWait := false } := by
  simp [outWrite, h]

theorem outWrite_notReady {s : State} (v : Int) (h : s.outReady = false) : outWrite v s = none := by
  simp [outWrite, h]

/-- What `input` can do: wait, or consume the first offer. -/
theorem execInput_cases {s t : State} (h : execInput s = .next t) :
    (s.inOffers = [] ∧ t = waitInput s) ∨
    ∃ w rest, s.inOffers = w :: rest ∧
      t = advance 0 (writeReg 1 (sext s.build.xlen w) { s with inOffers := rest, inWait := false }) := by
  cases ho : s.inOffers with
  | nil =>
    simp only [execInput, inRead_nil ho] at h
    exact .inl ⟨rfl, (Host.Outcome.next.inj h).symm⟩
  | cons w rest =>
    simp only [execInput, inRead_cons ho] at h
    exact .inr ⟨w, rest, rfl, (Host.Outcome.next.inj h).symm⟩

/-- What `print` can do: wait, or transfer `x[1]`. -/
theorem execPrint_cases {s t : State} (h : execPrint s = .next t) :
    (s.outReady = false ∧ t = waitOutput s) ∨
    (s.outReady = true ∧ t = advance 0 { s with outLog := s.outLog ++ [readReg s 1], outWait := false }) := by
  by_cases ho : s.outReady = true
  · simp only [execPrint, outWrite_ready _ ho] at h
    exact .inr ⟨ho, (Host.Outcome.next.inj h).symm⟩
  · have ho : s.outReady = false := by simpa using ho
    simp only [execPrint, outWrite_notReady _ ho] at h
    exact .inl ⟨ho, (Host.Outcome.next.inj h).symm⟩

/-! ### Fetch -/

/-- The bounds check as a fact about numbers. -/
theorem pcOutOfBounds_iff (s : State) : pcOutOfBounds s = true ↔ s.pc < 0 ∨ (s.progLen : Int) ≤ s.pc := by
  simp [pcOutOfBounds]

theorem fetch_outOfRange {s : State} (h : s.pc < 0 ∨ (s.progLen : Int) ≤ s.pc) : fetch s = .outOfRange := by
  simp [fetch, (pcOutOfBounds_iff s).2 h]

/-- What a fetch can give, with the bounds it implies. -/
theorem fetch_cases (s : State) :
    (fetch s = .outOfRange ∧ (s.pc < 0 ∨ (s.progLen : Int) ≤ s.pc)) ∨
    (0 ≤ s.pc ∧ s.pc < (s.progLen : Int) ∧
      ((Memory.read s.imem s.pc.toNat = none ∧ fetch s = .unwritten s.pc.toNat) ∨
       ∃ w, Memory.read s.imem s.pc.toNat = some w ∧ fetch s = .word w)) := by
  by_cases h : s.pc < 0 ∨ (s.progLen : Int) ≤ s.pc
  · exact .inl ⟨fetch_outOfRange h, h⟩
  · have hb : pcOutOfBounds s = false := by
      rw [← Bool.not_eq_true, pcOutOfBounds_iff]
      exact h
    have hf : fetch s = match Memory.read s.imem s.pc.toNat with
        | none => .unwritten s.pc.toNat
        | some w => .word w := by
      unfold fetch
      exact if_neg (by simp [hb])
    refine .inr ⟨by omega, by omega, ?_⟩
    rw [hf]
    cases hr : Memory.read s.imem s.pc.toNat with
    | none => exact .inl ⟨rfl, rfl⟩
    | some w => exact .inr ⟨w, rfl, rfl⟩

theorem Fetches.fetch_eq {s : State} {w : Word8} (h : Fetches s w) : fetch s = .word w := by
  rcases fetch_cases s with ⟨-, ho⟩ | ⟨-, -, ⟨hn, -⟩ | ⟨v, hv, hf⟩⟩
  · have := h.low
    have := h.high
    omega
  · rw [h.word] at hn
    cases hn
  · rw [h.word] at hv
    rw [hf, Option.some.inj hv]

/-- The fetch looks at the PC, the memory and `N` alone. -/
theorem fetch_congr {s t : State} (h1 : t.pc = s.pc) (h2 : t.imem = s.imem) (h3 : t.progLen = s.progLen) :
    fetch t = fetch s := by
  unfold fetch pcOutOfBounds
  rw [h1, h2, h3]

theorem currentInstr_congr {s t : State} (h1 : t.pc = s.pc) (h2 : t.imem = s.imem) (h3 : t.progLen = s.progLen) :
    currentInstr t = currentInstr s := by
  unfold currentInstr
  rw [fetch_congr h1 h2 h3]

theorem currentInstr_of_word {s : State} {w : Word8} {i : Instr} (h : fetch s = .word w) (hd : decode w = .instr i) :
    currentInstr s = some i := by
  simp only [currentInstr, h, hd]

/-- The step fetches from what it is asked to fetch: the PC, the status, `rst`, the memory and `N` alone. -/
theorem Fetches.congr {s t : State} {w : Word8} (h : Fetches s w) (h1 : t.rst = s.rst) (h2 : t.run = s.run)
    (h3 : t.pc = s.pc) (h4 : t.progLen = s.progLen) (h5 : t.imem = s.imem) : Fetches t w :=
  ⟨h1 ▸ h.rst, h2 ▸ h.run, h3 ▸ h.low, by rw [h3, h4]; exact h.high, by rw [h3, h5]; exact h.word⟩

/-- A placed word is the next one fetched, from every state. -/
theorem fetches_placeWord (s : State) (w : Word8) : Fetches (placeWord s w) w := by
  refine ⟨rfl, rfl, ?_, ?_, ?_⟩
  · simp [placeWord]
  · simp only [placeWord]
    omega
  · show Memory.read (Memory.write s.imem s.pc.toNat w) ((s.pc.toNat : Int)).toNat = some w
    rw [Int.toNat_natCast, Memory.read_write, if_pos rfl]

end Sys2Proof.Machine
end

