-- ==== Sys2Proof/Laws/Host.lean ====
section
/-! SUPPORT. The host's actions one at a time, for the proofs about loads and boots. -/

namespace Sys2Proof.Machine

/-- A sequence of host actions goes on from the state its first one answers. -/
theorem hostRun_cons {a : HostAction} {as : List HostAction} {s t : State} (h : hostAct a s = .next t) :
    hostRun (a :: as) s = hostRun as t := by
  simp only [hostRun, h]

/-- A write of the load, at an index the memory has. -/
theorem hostAct_writeImem {index : Nat} {w : Word8} {s : State} (h : s.rst = true) (hi : index < s.build.imemDepth) :
    hostAct (.writeImem index w) s = .next { s with imem := Memory.write s.imem index w } := by
  have hn : ¬ s.build.imemDepth ≤ index := by omega
  simp [hostAct, h, hn]

/-- What each host action can do when it is not refused. -/
inductive HostEffect (s : State) : HostAction → State → Prop where
  | assertReset : HostEffect s .assertReset { coreReset s with rst := true }
  | releaseReset (h : s.rst = true) (hl : imageLoaded s = true) :
      HostEffect s .releaseReset { coreReset s with rst := false }
  | released (h : s.rst = false) : HostEffect s .releaseReset s
  | writeImem (index : Nat) (w : Word8) (h : s.rst = true) (hi : index < s.build.imemDepth) :
      HostEffect s (.writeImem index w) { s with imem := Memory.write s.imem index w }
  | setProgLen (n : Nat) (h : s.rst = true) (hn : n ≤ s.build.imemDepth) :
      HostEffect s (.setProgLen n) { s with progLen := n }
  | offerInput (v : Int) (hv : inRange s.build v = true) :
      HostEffect s (.offerInput v) { s with inOffers := s.inOffers ++ [twos s.build.xlen v] }
  | withdrawInput (h : s.inOffers = []) : HostEffect s .withdrawInput s
  | setOutReady (ready : Bool) : HostEffect s (.setOutReady ready) { s with outReady := ready }

theorem hostAct_effect {a : HostAction} {s t : State} (h : hostAct a s = .next t) : HostEffect s a t := by
  cases a with
  | assertReset =>
    cases h
    exact .assertReset
  | releaseReset =>
    simp only [hostAct] at h
    split at h
    · rename_i hr
      split at h
      · rename_i hl
        cases h
        exact .releaseReset hr hl
      · cases h
    · rename_i hr
      cases h
      exact .released (by simpa using hr)
  | writeImem index w =>
    simp only [hostAct] at h
    split at h
    · cases h
    · rename_i hr
      split at h
      · cases h
      · rename_i hi
        cases h
        exact .writeImem index w (by simpa using hr) (Nat.lt_of_not_le hi)
  | setProgLen n =>
    simp only [hostAct] at h
    split at h
    · cases h
    · rename_i hr
      split at h
      · cases h
      · rename_i hn
        cases h
        exact .setProgLen n (by simpa using hr) (Nat.le_of_not_lt hn)
  | offerInput v =>
    simp only [hostAct] at h
    split at h
    · rename_i hv
      cases h
      exact .offerInput v hv
    · cases h
  | withdrawInput =>
    simp only [hostAct] at h
    split at h
    · rename_i ho
      cases h
      exact .withdrawInput (by simpa using ho)
    · cases h
  | setOutReady ready =>
    cases h
    exact .setOutReady ready

/-- Every host action keeps the memory's canonical form. -/
theorem hostAct_wf {a : HostAction} {s t : State} (h : hostAct a s = .next t) (hm : Memory.wf s.imem = true) :
    Memory.wf t.imem = true := by
  cases hostAct_effect h with
  | writeImem index w => exact Memory.wf_write _ _ _ hm
  | _ => exact hm

end Sys2Proof.Machine
end

