-- ==== Sys2Proof/Laws/PerInstr.lean ====
section
/-! SUPPORT. The statement family `TableRow`, one lemma per constructor of `Instr`: the word of an instruction has the
bits that its row of spec/opcode_table.json fixes. -/

namespace Sys2Proof.Laws.TableRow

/-- The row's mask (spec/opcode_table.json). -/
def mask : Instr → Word8
  | .add _ _ _ => 0xE0
  | .sub _ _ _ => 0xE0
  | .set _ _ _ => 0xE0
  | .jeq _ _ _ => 0xE0
  | .j _ => 0xE0
  | .empty => 0xFF
  | .input => 0xFF
  | .print => 0xFF
  | .exit => 0xFF

/-- The row's fixed bits (spec/opcode_table.json). -/
def fixed : Instr → Word8
  | .add _ _ _ => 0x00
  | .sub _ _ _ => 0x20
  | .set _ _ _ => 0x40
  | .jeq _ _ _ => 0x60
  | .j _ => 0x80
  | .empty => 0xE0
  | .input => 0xE1
  | .print => 0xE2
  | .exit => 0xE3

/-- The instruction's word agrees with its row. -/
def Statement (i : Instr) : Prop := encode i &&& mask i = fixed i

theorem add (rd rs : RegIdx) (imm : Imm1) : Statement (.add rd rs imm) := by
  revert rd rs imm
  unfold Statement
  decide

theorem sub (rd rs : RegIdx) (imm : Imm1) : Statement (.sub rd rs imm) := by
  revert rd rs imm
  unfold Statement
  decide

theorem set (rd rs : RegIdx) (imm : Imm1) : Statement (.set rd rs imm) := by
  revert rd rs imm
  unfold Statement
  decide

theorem jeq (rd rs : RegIdx) (imm : Imm1) : Statement (.jeq rd rs imm) := by
  revert rd rs imm
  unfold Statement
  decide

theorem j (off : Int) : Statement (.j off) := by
  have h : ∀ o : BitVec 5, ((0b100 : BitVec 3) ++ o) &&& (0xE0 : Word8) = 0x80 := by decide
  exact h _

theorem empty : Statement .empty := by
  unfold Statement
  decide

theorem input : Statement .input := by
  unfold Statement
  decide

theorem print : Statement .print := by
  unfold Statement
  decide

theorem exit : Statement .exit := by
  unfold Statement
  decide

end Sys2Proof.Laws.TableRow
end

