-- ==== Sys2Proof/Laws/Step.lean ====
section
/-! SUPPORT. What `exec` and `step` can do, said once: every invariant is derived from these. -/

namespace Sys2Proof.Machine

/-- `exec` always answers a next state: no instruction of this core stops or is refused. -/
theorem exec_answers (i : Instr) (s : State) : ∃ t, exec i s = .next t := by
  cases i with
  | add rd rs imm =>
    simp only [exec, execAdd, writeResult]
    split <;> exact ⟨_, rfl⟩
  | sub rd rs imm =>
    simp only [exec, execSub, writeResult]
    split <;> exact ⟨_, rfl⟩
  | set rd rs imm =>
    simp only [exec, execSet, writeResult]
    split <;> exact ⟨_, rfl⟩
  | jeq rd rs imm => exact ⟨_, rfl⟩
  | j off => exact ⟨_, rfl⟩
  | empty => exact ⟨_, rfl⟩
  | input =>
    simp only [exec, execInput]
    split <;> exact ⟨_, rfl⟩
  | print =>
    simp only [exec, execPrint]
    split <;> exact ⟨_, rfl⟩
  | exit => exact ⟨_, rfl⟩

/-! The arithmetic instructions as equations, one where the checks pass and one where a check fails. -/

theorem exec_add_inRange {s : State} {rd rs : RegIdx} {imm : Imm1}
    (h1 : inRange s.build (readReg s rd + readReg s rs) = true)
    (h2 : inRange s.build (readReg s rd + readReg s rs + immValue imm) = true) :
    exec (.add rd rs imm) s = .next (advance 0 (writeReg rd (readReg s rd + readReg s rs + immValue imm) s)) := by
  simp only [exec, execAdd, portA, portB, aluAdd_eq_some_iff.2 ⟨h1, h2, rfl⟩, writeResult]

theorem exec_add_overflow {s : State} {rd rs : RegIdx} {imm : Imm1} (h : overflows s (.add rd rs imm) = true) :
    exec (.add rd rs imm) s = .next (enterFault .arithOverflow s) := by
  have : aluAdd s.build (readReg s rd) (readReg s rs) (immValue imm) = none := by
    rw [Option.eq_none_iff_forall_ne_some]
    intro u hu
    obtain ⟨h1, h2, -⟩ := aluAdd_eq_some_iff.1 hu
    simp [overflows, h1, h2] at h
  simp only [exec, execAdd, portA, portB, this, writeResult]

theorem exec_sub_inRange {s : State} {rd rs : RegIdx} {imm : Imm1}
    (h1 : inRange s.build (readReg s rd - readReg s rs) = true)
    (h2 : inRange s.build (readReg s rd - readReg s rs - immValue imm) = true) :
    exec (.sub rd rs imm) s = .next (advance 0 (writeReg rd (readReg s rd - readReg s rs - immValue imm) s)) := by
  simp only [exec, execSub, portA, portB, aluSub_eq_some_iff.2 ⟨h1, h2, rfl⟩, writeResult]

theorem exec_sub_overflow {s : State} {rd rs : RegIdx} {imm : Imm1} (h : overflows s (.sub rd rs imm) = true) :
    exec (.sub rd rs imm) s = .next (enterFault .arithOverflow s) := by
  have : aluSub s.build (readReg s rd) (readReg s rs) (immValue imm) = none := by
    rw [Option.eq_none_iff_forall_ne_some]
    intro u hu
    obtain ⟨h1, h2, -⟩ := aluSub_eq_some_iff.1 hu
    simp [overflows, h1, h2] at h
  simp only [exec, execSub, portA, portB, this, writeResult]

theorem exec_set_inRange {s : State} {rd rs : RegIdx} {imm : Imm1}
    (h : inRange s.build (readReg s rs + immValue imm) = true) :
    exec (.set rd rs imm) s = .next (advance 0 (writeReg rd (readReg s rs + immValue imm) s)) := by
  simp only [exec, execSet, portB, checked_of_inRange h, writeResult]

theorem exec_set_overflow {s : State} {rd rs : RegIdx} {imm : Imm1} (h : overflows s (.set rd rs imm) = true) :
    exec (.set rd rs imm) s = .next (enterFault .arithOverflow s) := by
  have h : inRange s.build (readReg s rs + immValue imm) = false := by simpa [overflows] using h
  simp only [exec, execSet, portB, checked_of_not_inRange h, writeResult]

/-- Everything an instruction can do to the state, one named case each. -/
inductive ExecEffect (s : State) : Instr → State → Prop
  | overflow {i : Instr} (isArith : i ≠ .input ∧ i ≠ .print ∧ i ≠ .exit) (hov : overflows s i = true) :
      ExecEffect s i (enterFault .arithOverflow s)
  | result {i : Instr} {rd : RegIdx} {v : Int} (isArith : i ≠ .input ∧ i ≠ .print ∧ i ≠ .exit)
      (hrd : writtenReg i = some rd) (hno : overflows s i = false) (hv : inRange s.build v = true) :
      ExecEffect s i (advance 0 (writeReg rd v s))
  | jeq (rd rs : RegIdx) (imm : Imm1) :
      ExecEffect s (.jeq rd rs imm) (advance (jeqEffect (comparator (readReg s rd) (readReg s rs)) imm) s)
  | jump (off : Int) : ExecEffect s (.j off) (advance off s)
  | empty : ExecEffect s .empty (advance 0 s)
  | inputWait (ho : s.inOffers = []) : ExecEffect s .input (waitInput s)
  | inputDone {w : Nat} {rest : List Nat} (ho : s.inOffers = w :: rest) :
      ExecEffect s .input
        (advance 0 (writeReg 1 (sext s.build.xlen w) { s with inOffers := rest, inWait := false }))
  | printWait (ho : s.outReady = false) : ExecEffect s .print (waitOutput s)
  | printDone (ho : s.outReady = true) :
      ExecEffect s .print (advance 0 { s with outLog := s.outLog ++ [readReg s 1], outWait := false })
  | exit : ExecEffect s .exit (halt s)

/-- A next state of `exec` is one of these effects. -/
theorem exec_effect {i : Instr} {s t : State} (h : exec i s = .next t) : ExecEffect s i t := by
  cases i with
  | add rd rs imm =>
    rcases writeResult_cases h with ⟨hr, rfl⟩ | ⟨v, hr, rfl⟩
    · refine .overflow (by simp) ?_
      by_contra hc
      simp only [overflows, Bool.or_eq_true, not_or, Bool.not_eq_true', Bool.not_eq_false] at hc
      rw [portA, portB, aluAdd_eq_some_iff.2 ⟨hc.1, hc.2, rfl⟩] at hr
      cases hr
    · obtain ⟨h1, h2, rfl⟩ := aluAdd_eq_some_iff.1 hr
      simp only [portA, portB] at h1 h2
      exact .result (by simp) rfl (by simp [overflows, h1, h2]) h2
  | sub rd rs imm =>
    rcases writeResult_cases h with ⟨hr, rfl⟩ | ⟨v, hr, rfl⟩
    · refine .overflow (by simp) ?_
      by_contra hc
      simp only [overflows, Bool.or_eq_true, not_or, Bool.not_eq_true', Bool.not_eq_false] at hc
      rw [portA, portB, aluSub_eq_some_iff.2 ⟨hc.1, hc.2, rfl⟩] at hr
      cases hr
    · obtain ⟨h1, h2, rfl⟩ := aluSub_eq_some_iff.1 hr
      simp only [portA, portB] at h1 h2
      exact .result (by simp) rfl (by simp [overflows, h1, h2]) h2
  | set rd rs imm =>
    rcases writeResult_cases h with ⟨hr, rfl⟩ | ⟨v, hr, rfl⟩
    · refine .overflow (by simp) ?_
      by_contra hc
      simp only [overflows, Bool.not_eq_true', Bool.not_eq_false] at hc
      rw [portB, checked_of_inRange hc] at hr
      cases hr
    · obtain ⟨rfl, h1⟩ := checked_eq_some hr
      simp only [portB] at h1
      exact .result (by simp) rfl (by simp [overflows, h1]) h1
  | jeq rd rs imm => exact Host.Outcome.next.inj h ▸ .jeq rd rs imm
  | j off => exact Host.Outcome.next.inj h ▸ .jump off
  | empty => exact Host.Outcome.next.inj h ▸ .empty
  | input =>
    rcases execInput_cases h with ⟨ho, rfl⟩ | ⟨w, rest, ho, rfl⟩
    · exact .inputWait ho
    · exact .inputDone ho
  | print =>
    rcases execPrint_cases h with ⟨ho, rfl⟩ | ⟨ho, rfl⟩
    · exact .printWait ho
    · exact .printDone ho
  | exit => exact Host.Outcome.next.inj h ▸ .exit

/-- Everything a step can do, one named case each: the reset edge, a terminal state held, one of the two faults before
execution, or the execution of the decoded instruction. -/
inductive StepEffect (s : State) : State → Prop
  | reset (hrst : s.rst = true) : StepEffect s (coreReset s)
  | held (hrst : s.rst = false) (hrun : s.run ≠ .running) : StepEffect s s
  | outOfRange (hrst : s.rst = false) (hrun : s.run = .running) (ho : s.pc < 0 ∨ (s.progLen : Int) ≤ s.pc) :
      StepEffect s (enterFault .pcOutOfRange s)
  | illegal {w : Word8} {why : IllegalWord} (hf : Fetches s w) (hd : decode w = .illegal why) :
      StepEffect s (enterFault .illegalInstruction s)
  | executed {w : Word8} {i : Instr} {t : State} (hf : Fetches s w) (hd : decode w = .instr i)
      (he : exec i s = .next t) : StepEffect s t

/-- A next state of `step` is one of these effects. -/
theorem step_effect {s t : State} (h : step s = .next t) : StepEffect s t := by
  unfold step at h
  split at h
  · exact Host.Outcome.next.inj h ▸ .reset ‹_›
  · rename_i hrst
    have hrst : s.rst = false := by simpa using hrst
    cases hr : s.run with
    | halted =>
      rw [hr] at h
      exact Host.Outcome.next.inj h ▸ .held hrst (by simp [hr])
    | faulted =>
      rw [hr] at h
      exact Host.Outcome.next.inj h ▸ .held hrst (by simp [hr])
    | running =>
      rw [hr] at h
      rcases fetch_cases s with ⟨hf, ho⟩ | ⟨hl, hh, ⟨-, hf⟩ | ⟨w, hw, hf⟩⟩
      · simp only [hf] at h
        exact Host.Outcome.next.inj h ▸ .outOfRange hrst hr ho
      · simp only [hf] at h
        cases h
      · simp only [hf] at h
        have hF : Fetches s w := ⟨hrst, hr, hl, hh, hw⟩
        cases hd : decode w with
        | illegal why =>
          simp only [hd] at h
          exact Host.Outcome.next.inj h ▸ .illegal hF hd
        | instr i =>
          simp only [hd] at h
          exact .executed hF hd h

/-! The step from each kind of state, for rewriting. -/

theorem step_in_reset {s : State} (h : s.rst = true) : step s = .next (coreReset s) := by
  simp [step, h]

theorem step_terminal {s : State} (h : s.rst = false) (hr : s.run ≠ .running) : step s = .next s := by
  unfold step
  rw [h]
  cases hs : s.run with
  | running => exact absurd hs hr
  | halted => rfl
  | faulted => rfl

theorem step_outOfRange {s : State} (h : s.rst = false) (hr : s.run = .running)
    (ho : s.pc < 0 ∨ (s.progLen : Int) ≤ s.pc) : step s = .next (enterFault .pcOutOfRange s) := by
  simp [step, h, hr, fetch_outOfRange ho]

theorem step_illegal {s : State} {w : Word8} {why : IllegalWord} (h : Fetches s w) (hd : decode w = .illegal why) :
    step s = .next (enterFault .illegalInstruction s) := by
  simp [step, h.rst, h.run, h.fetch_eq, hd]

end Sys2Proof.Machine
end

