-- ==== Sys2Proof/Laws/Run.lean ====
section
/-! SUPPORT. Runs of many steps: one step unrolled, and the induction packaged once. -/

namespace Sys2Proof.Machine

/-- A run of any machine behind the host's interface unrolls one step at a time. -/
theorem core_run_succ (M : Host.Core) {s t : M.State} (k : Nat) (h : M.step s = .next t) :
    M.run (k + 1) s = M.run k t := by
  rw [Host.Core.run, h]

@[simp] theorem run_zero (s : State) : Sys2Proof.core.run 0 s = .next s := rfl

/-- A run of this core unrolls one step at a time. -/
theorem run_succ {s t : State} (k : Nat) (h : step s = .next t) :
    Sys2Proof.core.run (k + 1) s = Sys2Proof.core.run k t :=
  core_run_succ Sys2Proof.core k h

/-- A step that leads back to the same state makes a run that stays there. -/
theorem run_fixed {s : State} (h : step s = .next s) (k : Nat) : Sys2Proof.core.run k s = .next s := by
  induction k with
  | zero => rfl
  | succ k ih => rw [run_succ k h, ih]

/-- A run that answers a next state began with a step that did. -/
theorem core_run_succ_cases (M : Host.Core) {s u : M.State} {k : Nat} (h : M.run (k + 1) s = .next u) :
    ∃ t, M.step s = .next t ∧ M.run k t = .next u := by
  rw [Host.Core.run] at h
  cases hs : M.step s with
  | next t =>
    rw [hs] at h
    exact ⟨t, rfl, h⟩
  | fault r =>
    rw [hs] at h
    cases h
  | refused r =>
    rw [hs] at h
    cases h

/-- What holds at the start and is kept by every step holds after every run. -/
theorem run_keeps {P : State → Prop} (hstep : ∀ s t, P s → step s = .next t → P t) :
    ∀ (k : Nat) (s u : State), P s → Sys2Proof.core.run k s = .next u → P u
  | 0, _, _, hs, h => Host.Outcome.next.inj h ▸ hs
  | k + 1, s, u, hs, h => by
    obtain ⟨t, ht, hu⟩ := core_run_succ_cases Sys2Proof.core h
    exact run_keeps hstep k t u (hstep s t hs ht) hu

end Sys2Proof.Machine
end

