-- ==== Sys2Proof/Tests/Slice0.lean ====
section
/-! SUPPORT. Tests on small states, each with its expected result from spec/ (95_test_vectors.md unless a test names
another file), and for each obligation with hypotheses a concrete state and operands that meet them. -/

namespace Sys2Proof.Tests

open Sys2Proof.Machine

/-! ### Helpers -/

/-- The answer is a next state with the property. -/
def nextIs (o : Host.Outcome State Fault Refusal) (p : State → Bool) : Bool :=
  match o with
  | .next t => p t
  | .fault _ => false
  | .refused _ => false

theorem nextIs_exists {o : Host.Outcome State Fault Refusal} {p : State → Bool} (h : nextIs o p = true) :
    ∃ t, o = .next t ∧ p t = true := by
  unfold nextIs at h
  split at h
  · exact ⟨_, rfl, h⟩
  · cases h
  · cases h

/-- The default build with these registers. -/
def regs (x1 x2 x3 : Int) : State := { State.reset with x1 := x1, x2 := x2, x3 := x3 }

/-- A program of one word, at index 0. -/
def one (w : Word8) : State := { State.reset with imem := [(0, w)], progLen := 1 }

/-- `N = n`, the PC at `pc` and the word there. -/
def at_ (pc n : Nat) (w : Word8) : State := { State.reset with imem := [(pc, w)], progLen := n, pc := pc }

/-- Every character is a blank, computed. -/
theorem all_blank {l : List Char} (h : (l.all fun c => decide (c.toNat ∈ [32, 9, 11, 12, 13])) = true) :
    ∀ c ∈ l, c.toNat ∈ [32, 9, 11, 12, 13] := fun c hc => of_decide_eq_true (List.all_eq_true.1 h c hc)

def max32 : Int := 2147483647
def min32 : Int := -2147483648

theorem one_fetches (w : Word8) : Fetches (one w) w := ⟨rfl, rfl, Int.le_refl 0, Int.zero_lt_one, rfl⟩

/-- A loaded core that runs and waits for its input channel. -/
def waiting : State := { one 0xE1 with inWait := true }

/-- The invariant is met by a running, loaded, waiting core. -/
theorem inv_waiting : Inv waiting where
  build_wf := by decide
  regs_range := by decide
  progLen_le := by decide
  imem_wf := by decide
  imem_depth := by
    intro a ha
    have h : a ≠ 0 := by
      have : waiting.build.imemDepth = 65536 := rfl
      omega
    simp [waiting, one, Memory.read, h]
  loaded := fun _ => by decide
  pc_low := by decide
  pc_high := by decide
  cause_iff := by decide
  in_wait := fun _ => by decide
  out_wait := by decide
  offers_width := by
    intro w hw
    cases hw
  out_range := by
    intro v hv
    cases hv
  in_reset := by
    intro h
    cases h

/-! ### Well-formedness: the checks of 30_encoding.md R82 refuse an ill-formed term -/

theorem test_wf_add_dest0 : (Instr.add 0 1 1).wf = false := by decide
theorem test_wf_sub_dest0 : (Instr.sub 0 0 0).wf = false := by decide
theorem test_wf_set_dest0 : (Instr.set 0 0 1).wf = false := by decide
theorem test_wf_jeq_dest0 : (Instr.jeq 0 3 1).wf = false := by decide
theorem test_wf_j_below : (Instr.j (-17)).wf = false := by decide
theorem test_wf_j_above : (Instr.j 16).wf = false := by decide
theorem test_wf_source0 : (Instr.add 1 0 1).wf = true := by decide

/-! ### Decoding: words written out bit by bit from 30_encoding.md R57 to R62, L2.1 -/

theorem test_decode_add : decode 0b00001101 = .instr (.add 1 2 1) := by decide
theorem test_decode_sub : decode 0b00111001 = .instr (.sub 3 0 1) := by decide
theorem test_decode_set : decode 0b01011010 = .instr (.set 3 1 0) := by decide
theorem test_decode_jeq : decode 0b01101000 = .instr (.jeq 1 0 0) := by decide
theorem test_decode_j_neg : decode 0b10010000 = .instr (.j (-16)) := by decide
theorem test_decode_j_pos : decode 0b10001111 = .instr (.j 15) := by decide
theorem test_decode_empty : decode 0b11100000 = .instr .empty := by decide
theorem test_decode_input : decode 0b11100001 = .instr .input := by decide
theorem test_decode_print : decode 0b11100010 = .instr .print := by decide
theorem test_decode_exit : decode 0b11100011 = .instr .exit := by decide
theorem test_decode_rd0 : decode 0x67 = .illegal .destZero := by decide
theorem test_decode_op5 : decode 0xA0 = .illegal .reservedOpcode := by decide
theorem test_decode_op6 : decode 0xDF = .illegal .reservedOpcode := by decide
theorem test_decode_system : decode 0xE4 = .illegal .systemField := by decide

/-- 30_encoding.md R64: where the illegal words stand. -/
theorem test_illegal_ranges : ∀ w : Word8, (match decode w with | .illegal _ => true | .instr _ => false) =
    (w.toNat < 0x08 || (0x20 ≤ w.toNat && w.toNat < 0x28) || (0x40 ≤ w.toNat && w.toNat < 0x48) ||
      (0x60 ≤ w.toNat && w.toNat < 0x68) || (0xA0 ≤ w.toNat && w.toNat < 0xE0) || 0xE4 ≤ w.toNat) := by decide

/-! ### Instructions (L2.2 to L2.5) -/

/-- A3 -/
theorem test_add_same : nextIs (exec (.add 1 1 1) (regs 3 0 0)) (fun t => t.x1 == 7 && t.pc == 1) = true := by decide
/-- A8: the first partial sum overflows although the total fits -/
theorem test_add_partial : nextIs (exec (.add 1 2 1) (regs min32 (-1) 0))
    (fun t => t.run == .faulted && t.cause == .arithOverflow && t.x1 == min32 && t.pc == 0) = true := by decide
/-- S12 -/
theorem test_sub_same : nextIs (exec (.sub 2 2 1) (regs 0 min32 0)) (fun t => t.x2 == -1) = true := by decide
/-- S8 -/
theorem test_sub_partial : nextIs (exec (.sub 1 2 1) (regs 0 min32 0))
    (fun t => t.cause == .arithOverflow && t.x1 == 0) = true := by decide
/-- T7 -/
theorem test_set_same : nextIs (exec (.set 2 2 1) (regs 0 5 0)) (fun t => t.x2 == 6) = true := by decide
/-- T5 -/
theorem test_set_overflow : nextIs (exec (.set 1 2 1) (regs 9 max32 0))
    (fun t => t.cause == .arithOverflow && t.x1 == 9) = true := by decide
/-- Q3, marked QUIRK -/
theorem test_jeq_quirk : nextIs (exec (.jeq 1 2 0) { regs 3 4 0 with pc := 4 }) (fun t => t.pc == 6) = true := by decide
/-- Q4 -/
theorem test_jeq_fall : nextIs (exec (.jeq 1 2 1) { regs 3 4 0 with pc := 4 }) (fun t => t.pc == 5) = true := by decide
/-- J6, marked QUIRK -/
theorem test_j_back : nextIs (step (at_ 20 40 0x90)) (fun t => t.pc == 5) = true := by decide
/-- J7 -/
theorem test_j_negative : nextIs (step (one 0x90)) (fun t => t.pc == -15 && t.run == .running) = true := by decide
/-- Y2: MIN as its word on the port -/
theorem test_input_min : nextIs (exec .input { State.reset with inOffers := [0x80000000, 7] })
    (fun t => t.x1 == min32 && t.pc == 1 && t.inOffers == [7]) = true := by decide
/-- Y4 -/
theorem test_input_wait : nextIs (step (one 0xE1))
    (fun t => t.run == .running && t.inWait && inReady t && t.pc == 0 && t.x1 == 0) = true := by decide
/-- Y5 -/
theorem test_print : nextIs (exec .print (regs (-3) 0 0)) (fun t => t.outLog == [-3] && t.pc == 1) = true := by decide
/-- Y7 -/
theorem test_print_wait : nextIs (step { one 0xE2 with outReady := false })
    (fun t => t.outWait && outValid t && t.pc == 0 && t.outLog == []) = true := by decide
/-- Y8 -/
theorem test_exit : nextIs (step (at_ 5 6 0xE3)) (fun t => t.run == .halted && t.pc == 5 && t.cause == .none) = true := by
  decide
/-- Y10 -/
theorem test_empty_last : nextIs (step (at_ 5 6 0xE0)) (fun t => t.pc == 6 && t.run == .running) = true := by decide

/-! ### The step (L2.6, L1.2) -/

/-- F1 -/
theorem test_step_no_program : nextIs (step State.reset)
    (fun t => t.run == .faulted && t.cause == .pcOutOfRange && t.pc == 0) = true := by decide
/-- F2 -/
theorem test_step_illegal : nextIs (step (at_ 3 4 0xA0))
    (fun t => t.cause == .illegalInstruction && t.pc == 3 && statusWord t == 0b001010) = true := by decide
/-- F5 -/
theorem test_step_halted : nextIs (step { one 0x09 with run := .halted })
    (fun t => decide (t = { one 0x09 with run := .halted })) = true := by decide
/-- F6 -/
theorem test_step_reset : nextIs (step { regs 1 2 3 with rst := true, pc := 9, run := .faulted, cause := .arithOverflow })
    (fun t => t.x1 == 0 && t.x3 == 0 && t.pc == 0 && statusWord t == 0) = true := by decide
/-- Scenario B at `XLEN = 8`: the `add` at `x1 = 127` -/
theorem test_step_xlen8 : nextIs (step { one 0x09 with build := { xlen := 8, imemDepth := 16, pcw := 6 }, x1 := 127 })
    (fun t => t.cause == .arithOverflow && t.x1 == 127 && t.pc == 0) = true := by decide
/-- An in-bounds index that the host never wrote (log entry 5) -/
theorem test_step_unwritten : step { State.reset with progLen := 1 } = .fault (.imemUnwritten 0) := rfl
/-- The host's own question: a table word runs as the first instruction after reset -/
theorem test_fetch_word : nextIs (step (State.reset.withFetchWord 8 0x49)) (fun t => t.x1 == 1 && t.pc == 1) = true := by
  decide

/-- 20_memory.md R38 and 42_control_transfer.md R115: the least PC, -15, as a number of `PCW = 18` bits, 2^18 - 15 -/
theorem test_imem_addr : imemAddr { State.reset with pc := -15 } = 262129 := by decide

/-! ### The host and the assembler (L1.3 to L1.6, L2.7) -/

/-- 70_reset_and_hazards.md R151: the load of Scenario C -/
theorem test_load : nextIs (hostRun (loadActions [0xE0, 0xE3]) (regs 4 5 6))
    (fun t => t.progLen == 2 && t.x1 == 0 && !t.rst && t.imem == [(0, 0xE0), (1, 0xE3)]) = true := by decide
/-- 93_implementation_defined.md I7 -/
theorem test_image_change : hostAct (.writeImem 0 0xE3) (one 0xE0) = .refused .imageChangedOutOfReset := rfl
/-- Scenario C: a blank line is `empty` -/
theorem test_asm_blank : assemble AsmConfig.default ([lineFeed] ++ nameExit ++ [lineFeed]) = .words [0xE0, 0xE3] := by
  decide
/-- A comment after an instruction, and any run of whitespace -/
theorem test_asm_comment : assemble AsmConfig.default
    (nameAdd ++ [' ', ' ', '#', '1', Char.ofNat 9, '#', '0', ' ', ' ', '1', ' ', '/', '/', 'x']) = .words [0x09] := by decide
/-- `j +3` -/
theorem test_asm_plus : assemble AsmConfig.default ['j', ' ', '+', '3'] = .words [0x83] := by decide
/-- `set #01 #0 1` -/
theorem test_asm_leading_zero :
    assemble AsmConfig.default (nameSet ++ [' ', '#', '0', '1', ' ', '#', '0', ' ', '1']) = .words [0x49] := by decide
/-- `exit//done`: the marker inside a token starts no comment -/
theorem test_asm_marker_inside : assemble AsmConfig.default (nameExit ++ ['/', '/', 'd']) =
    .rejected [{ line := 0, arg := 0, error := .unknownMnemonic }] := by decide
/-- Scenario D: two errors on two lines, both reported -/
theorem test_asm_two_errors : assemble AsmConfig.default
    (nameAdd ++ [' ', '#', '0', ' ', '#', '1', ' ', '1', lineFeed, 'j', ' ', '1', '6', lineFeed] ++ nameExit) =
    .rejected [{ line := 0, arg := 1, error := .destOutOfRange }, { line := 1, arg := 1, error := .offsetOutOfRange }] := by
  decide
/-- `add 1 #0 1`: the sigil is missing -/
theorem test_asm_sigil : assembleLine AsmConfig.default (nameAdd ++ [' ', '1', ' ', '#', '0', ' ', '1']) =
    .errors [(1, .missingSigil)] := by decide
/-- `jeq #1 #2 2` -/
theorem test_asm_imm : assembleLine AsmConfig.default (nameJeq ++ [' ', '#', '1', ' ', '#', '2', ' ', '2']) =
    .errors [(3, .immOutOfRange)] := by decide
/-- `print 1` -/
theorem test_asm_count : assembleLine AsmConfig.default (namePrint ++ [' ', '1']) = .errors [(0, .wrongOperandCount)] := by
  decide
/-- 30_encoding.md R72, R88 -/
theorem test_disassemble : disassemble 0x9E = some ['j', ' ', '-', '2'] := by decide

/-! ### Witnesses: a state and operands that meet each obligation's hypotheses -/

theorem wit_DecodeInvertsEncode : (3 : RegIdx) ≠ 0 ∧ (Instr.j (-16)).wf = true ∧ (Instr.j 15).wf = true ∧ (Instr.jeq 3 0 1).wf = true := by
  decide
theorem wit_EncodeInvertsDecode : decode 0x90 = .instr (.j (-16)) ∧ (Instr.j 16).wf = false := by decide
theorem wit_StepRunsDecodedInstr : Fetches (one 0x0D) 0x0D ∧ decode 0x0D = .instr (.add 1 2 1) :=
  ⟨one_fetches _, by decide⟩
theorem wit_PcOutOfRangeFaults :
    (let s := { one 0xE0 with pc := -1 }; s.rst = false ∧ s.run = .running ∧ s.pc < 0) ∧
    (let s := { one 0xE0 with pc := 1 }; s.rst = false ∧ s.run = .running ∧ (s.progLen : Int) ≤ s.pc) ∧
    (State.reset.rst = false ∧ State.reset.run = .running ∧ State.reset.pc = 0 ∧ State.reset.progLen = 0) := by decide
theorem wit_IllegalWordFaults :
    (Fetches (one 0x67) 0x67 ∧ (0x67#8).toNat < 0x80 ∧ (0x67#8).toNat / 8 % 4 = 0) ∧
    (Fetches (one 0xA0) 0xA0 ∧ 0xA0 ≤ (0xA0#8).toNat ∧ (0xA0#8).toNat ≤ 0xDF) ∧
    (Fetches (one 0xE4) 0xE4 ∧ 0xE4 ≤ (0xE4#8).toNat) :=
  ⟨⟨one_fetches _, by decide⟩, ⟨one_fetches _, by decide⟩, ⟨one_fetches _, by decide⟩⟩
theorem wit_FaultPriorityOrder :
    (let s := { one 0xA0 with pc := 1 }; s.rst = false ∧ s.run = .running ∧ s.cause = .none ∧ (s.progLen : Int) ≤ s.pc) ∧
    ((one 0xA0).cause = .none ∧ Fetches (one 0xA0) 0xA0) ∧
    (let s := { one 0x09 with x1 := max32 }; s.cause = .none ∧ overflows s (.add 1 0 1) = true) :=
  ⟨by decide, ⟨rfl, one_fetches _⟩, by decide⟩
theorem wit_FaultingStepWritesOnlyStatus :
    ∃ t, step { one 0x09 with x1 := max32 } = .next t ∧ decide (t.run = .faulted) = true :=
  nextIs_exists (p := fun t => decide (t.run = .faulted)) (by decide)
theorem wit_TerminalStatesHold :
    (let s := { one 0x09 with run := .halted }; s.rst = false ∧ ended s = true) ∧
    (let s := { one 0x09 with run := .faulted }; s.rst = false ∧ ended s = true) := by decide
theorem wit_OnlyExitHalts : (one 0xE3).run = .running ∧
    ∃ t, step (one 0xE3) = .next t ∧ decide (t.run = .halted) = true :=
  ⟨rfl, nextIs_exists (p := fun t => decide (t.run = .halted)) (by decide)⟩
theorem wit_ResetEdgeClearsCore : ({ regs 1 2 3 with rst := true, inOffers := [5] } : State).rst = true := rfl
theorem wit_InvKeptByStep_InvStepsNeverStop : Inv waiting ∧ ∃ t, step waiting = .next t ∧ decide (t = waiting) = true :=
  ⟨inv_waiting, nextIs_exists (p := fun t => decide (t = waiting)) (by decide)⟩
theorem wit_InvKeptByHost :
    Inv waiting ∧ ∃ t, hostAct (.offerInput min32) waiting = .next t ∧ (t.inOffers == [0x80000000]) = true :=
  ⟨inv_waiting, nextIs_exists (p := fun t => t.inOffers == [0x80000000]) (by decide)⟩
theorem wit_PcNeverWraps :
    (∃ t, step (at_ 39 40 0x8F) = .next t ∧ decide (t.pc - (at_ 39 40 0x8F).pc = 16) = true) ∧
    (∃ t, step (one 0x90) = .next t ∧ decide (t.pc = -15) = true) ∧ Inv waiting :=
  ⟨nextIs_exists (p := fun t => decide (t.pc - (at_ 39 40 0x8F).pc = 16)) (by decide),
    nextIs_exists (p := fun t => decide (t.pc = -15)) (by decide), inv_waiting⟩
theorem wit_StepKeepsHostPart_OneRegisterOneTransfer : (one 0xE2).rst = false ∧
    ∃ t, step (one 0xE2) = .next t ∧ (t.outLog == [0]) = true :=
  ⟨rfl, nextIs_exists (p := fun t => t.outLog == [0]) (by decide)⟩
theorem wit_OnlyTheTablesRegister : writtenReg (.add 1 2 1) ≠ some 2 ∧
    ∃ t, exec (.add 1 2 1) (regs 5 7 0) = .next t ∧ (t.x1 == 13) = true :=
  ⟨by decide, nextIs_exists (p := fun t => t.x1 == 13) (by decide)⟩
theorem wit_StepSeesHostOnlyThroughChannels :
    currentInstr (one 0xE2) ≠ some .input ∧ currentInstr (one 0xE1) ≠ some .print ∧
    (∃ t, step (one 0xE2) = .next t ∧ true = true) ∧ (∃ t, step (one 0xE1) = .next t ∧ true = true) :=
  ⟨by decide, by decide, nextIs_exists (p := fun _ => true) (by decide), nextIs_exists (p := fun _ => true) (by decide)⟩
theorem wit_ObservationIsFunctionOfInputs :
    let s1 := one 0xE2
    let s2 := { one 0xE2 with imem := [(0, 0xE2), (7, 0x00)], build := { xlen := 32, imemDepth := 8, pcw := 6 }, outLog := [9] }
    coreReset s1 = s1 ∧ coreReset s2 = s2 ∧ s2.build.xlen = s1.build.xlen ∧ s2.progLen = s1.progLen ∧
      (∀ a, a < s1.progLen → Memory.read s2.imem a = Memory.read s1.imem a) ∧
      ∃ t1, step s1 = .next t1 ∧ (t1.outLog == [0]) = true :=
  ⟨rfl, rfl, rfl, rfl, by decide, nextIs_exists (p := fun t => t.outLog == [0]) (by decide)⟩
theorem wit_RegisterZeroReadsZero : decode 0x0D = .instr (.add 1 2 1) ∧
    ∃ t, exec (.add 1 2 1) (regs 5 7 0) = .next t ∧ true = true :=
  ⟨by decide, nextIs_exists (p := fun _ => true) (by decide)⟩
theorem wit_AddEffect :
    (let s := regs max32 1 0; inRange s.build (readReg s 1 + readReg s 2) = false) ∧
    (let s := regs max32 0 0; inRange s.build (readReg s 1 + readReg s 2) = true ∧
      inRange s.build (readReg s 1 + readReg s 2 + immValue 1) = false) ∧
    (let s := regs min32 max32 0; inRange s.build (readReg s 1 + readReg s 2) = true ∧
      inRange s.build (readReg s 1 + readReg s 2 + immValue 1) = true) ∧
    (let s := regs 5 7 0; 5 ≤ s.build.xlen ∧ readReg s 1 = 5 ∧ readReg s 2 = 7) := by decide
theorem wit_SubEffect :
    (let s := regs 0 min32 0; inRange s.build (readReg s 1 - readReg s 2) = false) ∧
    (let s := regs min32 0 0; inRange s.build (readReg s 1 - readReg s 2) = true ∧
      inRange s.build (readReg s 1 - readReg s 2 - immValue 1) = false) ∧
    (let s := regs (-1) min32 0; inRange s.build (readReg s 1 - readReg s 2) = true ∧
      inRange s.build (readReg s 1 - readReg s 2 - immValue 1) = true) ∧
    (let s := regs 0 0 2; 3 ≤ s.build.xlen ∧ readReg s 3 = 2) := by decide
theorem wit_SetEffect :
    (let s := regs 0 max32 0; inRange s.build (readReg s 2) = true ∧
      inRange s.build (readReg s 2 + immValue 1) = false) ∧
    (let s := regs 0 max32 0; inRange s.build (readReg s 2 + immValue 0) = true) ∧ 2 ≤ State.reset.build.xlen := by decide
theorem wit_AddCornerCases :
    (let s := regs min32 (-1) 0; 2 ≤ s.build.xlen ∧ (∀ r, inRange s.build (readReg s r) = true) ∧
      readReg s 1 = minInt s.build.xlen ∧ readReg s 2 = -1) ∧
    (let s := regs 3 4 0; (∀ r, inRange s.build (readReg s r) = true) ∧
      inRange s.build (readReg s 1 + immValue 1) = true ∧ inRange s.build (2 * readReg s 1) = true ∧
      inRange s.build (2 * readReg s 1 + immValue 1) = true ∧ inRange s.build (readReg s 1 + readReg s 2) = true) := by
  decide
theorem wit_SubCornerCases :
    (let s := regs 0 min32 0; 2 ≤ s.build.xlen ∧ (∀ r, inRange s.build (readReg s r) = true) ∧
      readReg s 1 = 0 ∧ readReg s 2 = minInt s.build.xlen) ∧
    (let s := regs 3 4 0; (∀ r, inRange s.build (readReg s r) = true) ∧
      inRange s.build (readReg s 1 - immValue 1) = true ∧ inRange s.build (readReg s 1 - readReg s 2) = true) := by decide
theorem wit_SetCornerCases :
    (let s := regs 9 3 0; 2 ≤ s.build.xlen ∧ (∀ r, inRange s.build (readReg s r) = true) ∧
      inRange s.build (readReg s 1 + immValue 1) = true ∧ s.run ≠ .faulted) ∧
    ∃ t, exec (.set 1 2 1) (regs 9 3 0) = .next t ∧ decide (t.run = (regs 9 3 0).run) = true :=
  ⟨by decide, nextIs_exists (p := fun t => decide (t.run = (regs 9 3 0).run)) (by decide)⟩
theorem wit_ArithCompletesExactly_ArithFrame : (regs 5 7 0).run = .running ∧
    ∃ t, exec (.add 1 2 1) (regs 5 7 0) = .next t ∧ decide (t.run = .running) = true :=
  ⟨rfl, nextIs_exists (p := fun t => decide (t.run = .running)) (by decide)⟩
theorem wit_DestZeroDiscardsWrite :
    overflows (regs 0 max32 0) (.set 0 2 1) = true ∧ overflows (regs 0 max32 0) (.set 0 2 0) = false := by decide
theorem wit_JeqEffect :
    (let s := regs 3 3 0; readReg s 1 = readReg s 2) ∧ (let s := regs 3 4 0; readReg s 1 ≠ readReg s 2) ∧
    (let s := { regs 0 0 0 with pc := 1 }; readReg s 1 = 0 ∧ s.pc = 1) := by decide
theorem wit_JumpEffect_JumpReach : offsetOk (-16) = true ∧ offsetOk 15 = true ∧ ({ State.reset with pc := 1 } : State).pc = 1 ∧
    (let s := State.reset; s.pc - 15 ≤ -15 ∧ (-15 : Int) ≤ s.pc + 16) ∧
    ∃ t, exec (.jeq 1 0 1) State.reset = .next t ∧ decide (t.pc = 2) = true :=
  ⟨by decide, by decide, rfl, by decide, nextIs_exists (p := fun t => decide (t.pc = 2)) (by decide)⟩
theorem wit_TargetFaultsAtNextStep : Fetches (one 0x90) 0x90 ∧ decode 0x90 = .instr (.j (-16)) ∧
    ∃ t, step (one 0x90) = .next t ∧ decide (t.pc < 0) = true :=
  ⟨one_fetches _, by decide, nextIs_exists (p := fun t => decide (t.pc < 0)) (by decide)⟩
theorem wit_TargetFaultsAtNextStep_jeq : Fetches (one 0x69) 0x69 ∧ decode 0x69 = .instr (.jeq 1 0 1) ∧
    ∃ t, step (one 0x69) = .next t ∧ decide (t.pc = 2) = true :=
  ⟨one_fetches _, by decide, nextIs_exists (p := fun t => decide (t.pc = 2)) (by decide)⟩
theorem wit_ControlFrame : ∃ t, exec (.j (-2)) { State.reset with pc := 1 } = .next t ∧ decide (t.pc = 0) = true :=
  nextIs_exists (p := fun t => decide (t.pc = 0)) (by decide)
theorem wit_InputEffect :
    (let s := { State.reset with inOffers := [0x80000000] }; s.inOffers = [0x80000000] ∧ 1 ≤ s.build.xlen) ∧
    (State.reset.inOffers = [] ∧ inRange State.reset.build min32 = true ∧ inRange State.reset.build max32 = true) := by
  decide
theorem wit_InputWaits : State.reset.inOffers = [] ∧ State.reset.rst = false ∧ State.reset.run = .running :=
  ⟨rfl, rfl, rfl⟩
theorem wit_PrintEffect : State.reset.outReady = true := rfl
theorem wit_PrintWaits :
    (let s := { State.reset with outReady := false }; s.outReady = false ∧ s.rst = false ∧ s.run = .running) := by decide
theorem wit_WaitHasNoTimeout :
    (Fetches (one 0xE1) 0xE1 ∧ decode 0xE1 = .instr .input ∧ (one 0xE1).inOffers = [] ∧
      ∃ t, hostAct (.offerInput 7) { one 0xE1 with inWait := true } = .next t ∧ true = true) ∧
    (Fetches { one 0xE2 with outReady := false } 0xE2 ∧ decode 0xE2 = .instr .print ∧
      ∃ t, hostAct (.setOutReady true) { one 0xE2 with outReady := false, outWait := true } = .next t ∧ true = true) :=
  ⟨⟨one_fetches _, by decide, rfl, nextIs_exists (p := fun _ => true) (by decide)⟩,
    ⟨⟨rfl, rfl, by decide, by decide, rfl⟩, by decide, nextIs_exists (p := fun _ => true) (by decide)⟩⟩
theorem wit_EmptyEffect_lines :
    splitTokens [] [' ', Char.ofNat 9] = [] ∧ splitTokens [] ['/', '/', 'x'] = [['/', '/', 'x']] ∧
    startsComment AsmConfig.default ['/', '/', 'x'] = true ∧ splitTokens [] (nameEmpty ++ [' ']) = [nameEmpty] ∧
    (∀ c ∈ [' ', Char.ofNat 13], c.toNat ∈ [32, 9, 11, 12, 13]) ∧ isBlank AsmConfig.default.mark1 = false :=
  ⟨by decide, by decide, by decide, by decide, all_blank (by decide), by decide⟩
theorem wit_EmptyEffect :
    let s := { State.reset with imem := [(0, 0xE0), (1, 0xE3)], progLen := 2 }
    s.rst = false ∧ s.run = .running ∧ s.pc = 0 ∧ s.progLen = 2 ∧ Memory.read s.imem 0 = some 0xE0 ∧
      Memory.read s.imem 1 = some 0xE3 := by decide
theorem wit_ChannelInstrFrame :
    (∃ t, exec .input { State.reset with inOffers := [7] } = .next t ∧ (t.x1 == 7) = true) ∧
    (∃ t, exec .print State.reset = .next t ∧ (t.outLog == [0]) = true) :=
  ⟨nextIs_exists (p := fun t => t.x1 == 7) (by decide), nextIs_exists (p := fun t => t.outLog == [0]) (by decide)⟩
theorem wit_HostDutiesAreRefused : State.reset.rst = false ∧ ({ State.reset with inOffers := [7] } : State).inOffers ≠ [] ∧
    (let s := { State.reset with rst := true }; s.rst = true ∧ 65535 < s.build.imemDepth ∧
      s.build.imemDepth ≤ 65536 ∧ s.build.imemDepth < 65537) ∧
    (let s := { State.reset with rst := true, progLen := 1 }; s.rst = true ∧ 0 < s.progLen ∧
      Memory.read s.imem 0 = none) ∧
    max32 + 1 > maxInt State.reset.build.xlen ∧ min32 - 1 < minInt State.reset.build.xlen := by decide
theorem wit_HostActionsHaveTheirEffect :
    (let s := { one 0xE3 with rst := true }; s.rst = true ∧
      (∀ a, a < s.progLen → (Memory.read s.imem a).isSome = true) ∧ 65536 ≤ s.build.imemDepth ∧ 65535 < s.build.imemDepth) ∧
    minInt State.reset.build.xlen ≤ min32 ∧ max32 ≤ maxInt State.reset.build.xlen := by decide
theorem wit_OutputsRenderedInOrder : ({ State.reset with outLog := [7, -3] } : State).outLog[1]? = some (-3) := by decide
theorem wit_WhitespaceAndCommentsDiscarded :
    [Char.ofNat 9, ' '] ≠ [] ∧ (∀ c ∈ ' ' :: [Char.ofNat 9, ' '], c.toNat ∈ [32, 9, 11, 12, 13]) ∧
    isBlank AsmConfig.default.mark1 = false ∧ isBlank AsmConfig.default.mark2 = false :=
  ⟨by simp, all_blank (by decide), by decide, by decide⟩
theorem wit_LoadPlacesTheProgram : ([0x49, 0xE2, 0xE3] : List Word8).length ≤ State.reset.build.imemDepth := by decide
theorem wit_ExitStatusMapping : ({ State.reset with run := .halted } : State).run = .halted ∧
    (let s := { State.reset with run := .faulted, cause := .pcOutOfRange }; s.run = .faulted ∧ s.cause = .pcOutOfRange) ∧
    State.reset.run = .running := by decide
theorem wit_OneWordPerLine : assemble AsmConfig.default (namePrint ++ [lineFeed]) = .words [0xE2] ∧
    (splitLines (namePrint ++ [lineFeed]))[0]? = some namePrint := by decide
theorem wit_EveryErrorIsReported : (splitLines ['j', lineFeed])[0]? = some ['j'] ∧
    assembleLine AsmConfig.default ['j'] = .errors [(0, .wrongOperandCount)] ∧
    assemble AsmConfig.default ['j', lineFeed] = .rejected [{ line := 0, arg := 0, error := .wrongOperandCount }] := by decide
theorem wit_LinesSplitAtLineFeed : (['j', lineFeed] : List Char) ≠ [] ∧ lineFeed ∉ ['j'] ∧
    ['j', lineFeed] = ['j'] ++ lineFeed :: [] ∧ ['j'] ∈ splitLines ['j', lineFeed] := by decide
theorem wit_OffsetLiteralRange : ((-16 : Int) ≤ -16 ∧ (-16 : Int) ≤ 15) ∧ ((-17 : Int) < -16) ∧ ((15 : Int) < 16) := by decide
theorem wit_AssembleInvertsDisassemble : disassemble 0x90 = some ['j', ' ', '-', '1', '6'] := by decide
theorem wit_AssembledNeverIllegal : assemble AsmConfig.default nameExit = .words [0xE3] ∧
    ∃ t, bootText AsmConfig.default nameExit State.reset = .next t ∧
      nextIs (Sys2Proof.core.run 1 t) (fun u => decide (u.run = .halted)) = true :=
  ⟨by decide, nextIs_exists
    (p := fun t => nextIs (Sys2Proof.core.run 1 t) (fun u => decide (u.run = .halted))) (by decide)⟩
theorem wit_RejectedTextNeverRuns :
    assemble AsmConfig.default ['j'] = .rejected [{ line := 0, arg := 0, error := .wrongOperandCount }] ∧
    ∃ t, bootText AsmConfig.default ['j'] State.reset = .next t ∧
      nextIs (Sys2Proof.core.run 2 t) (fun u => u.rst) = true :=
  ⟨by decide, nextIs_exists (p := fun t => nextIs (Sys2Proof.core.run 2 t) (fun u => u.rst)) (by decide)⟩

end Sys2Proof.Tests
end

/-! What one instruction and one step do to each part of the state, read off `exec_effect` and `step_effect`, and the
obligations about the state that follow: the frames, the PC's bounds and the invariant. -/

namespace Sys2Proof.Machine

/-! ### What an instruction leaves unchanged -/

/-- No instruction writes what the host owns; the memory is the same list, not only the same words. -/
theorem ExecEffect.keeps_host {i : Instr} {s t : State} (h : ExecEffect s i t) :
    t.imem = s.imem ∧ t.progLen = s.progLen ∧ t.build = s.build ∧ t.rst = s.rst ∧ t.outReady = s.outReady := by
  cases h <;> simp

/-- The host's part as the frames state it, word by word. -/
theorem ExecEffect.hostPartSame {i : Instr} {s t : State} (h : ExecEffect s i t) : HostPartSame s t := by
  obtain ⟨himem, hlen, hbuild, hrst, hready⟩ := h.keeps_host
  exact ⟨hbuild, fun a => by rw [himem], hlen, hrst, hready⟩

/-- A register that is not the instruction's own (10_state.md R21) reads as before. -/
theorem ExecEffect.readReg_of_not_written {i : Instr} {s t : State} {r : RegIdx} (h : ExecEffect s i t)
    (hr : writtenReg i ≠ some r) : readReg t r = readReg s r := by
  cases h with
  | @result _ rd v _ hrd _ _ =>
    have hne : r ≠ rd := fun heq => hr (heq ▸ hrd)
    rw [readReg_advance, readReg_writeReg, if_neg (fun hc => hne hc.1)]
  | inputDone ho =>
    have hne : r ≠ 1 := fun heq => hr (heq ▸ rfl)
    rw [readReg_advance, readReg_writeReg, if_neg (fun hc => hne hc.1)]
    rfl
  | _ => rfl

/-- An instruction with a destination, other than `input`, enters the overflow fault or writes that destination and
moves on. -/
theorem ExecEffect.result_cases {i : Instr} {s t : State} {rd : RegIdx} (h : ExecEffect s i t)
    (hrd : writtenReg i = some rd) (hin : i ≠ .input) :
    (overflows s i = true ∧ t = enterFault .arithOverflow s) ∨
    (overflows s i = false ∧ ∃ v, t = advance 0 (writeReg rd v s)) := by
  cases h with
  | overflow _ hov => exact .inl ⟨hov, rfl⟩
  | @result _ rd' v _ hrd' hno _ =>
    obtain rfl : rd' = rd := Option.some.inj (hrd'.symm.trans hrd)
    exact .inr ⟨hno, v, rfl⟩
  | inputWait => exact absurd rfl hin
  | inputDone => exact absurd rfl hin
  | jeq | jump | empty | printWait | printDone | exit => cases hrd

/-- The PC's advance changes the PC alone. -/
theorem advance_frame (k : Int) (s : State) :
    RegsSame s (advance k s) ∧ RunSame s (advance k s) ∧ ChannelsSame s (advance k s) ∧ HostPartSame s (advance k s) :=
  ⟨fun _ => rfl, ⟨rfl, rfl⟩, ⟨rfl, rfl, rfl, rfl⟩, ⟨rfl, fun _ => rfl, rfl, rfl, rfl⟩⟩

/-! ### What an instruction does to the clauses of the invariant -/

/-- Every value written to a register is in range (41_arithmetic.md R107, 20_memory.md R47). -/
theorem ExecEffect.regs_inRange {i : Instr} {s t : State} (h : ExecEffect s i t) (hx : 1 ≤ s.build.xlen)
    (hs : ∀ r, inRange s.build (readReg s r) = true) (r : RegIdx) : inRange s.build (readReg t r) = true := by
  cases h with
  | result _ _ _ hv =>
    rw [readReg_advance, readReg_writeReg]
    split
    · exact hv
    · exact hs r
  | inputDone ho =>
    rw [readReg_advance, readReg_writeReg]
    split
    · exact inRange_sext _ _ hx
    · exact hs r
  | _ => exact hs r

/-- A well-formed instruction moves the PC by -15 to +16 (10_state.md R27). -/
theorem ExecEffect.pc_move {i : Instr} {s t : State} (h : ExecEffect s i t) (hwf : i.wf = true) :
    -15 ≤ t.pc - s.pc ∧ t.pc - s.pc ≤ 16 := by
  cases h with
  | jeq rd rs imm =>
    have hk := jeqEffect_bounds (comparator (readReg s rd) (readReg s rs)) imm
    rw [advance_pc]
    omega
  | jump off =>
    have hoff : -16 ≤ off ∧ off ≤ 15 := by simpa [Instr.wf, offsetOk] using hwf
    rw [advance_pc]
    omega
  | _ => simp

/-- An instruction keeps the status, faults with ARITH_OVERFLOW, or halts. -/
theorem ExecEffect.status_cases {i : Instr} {s t : State} (h : ExecEffect s i t) :
    RunSame s t ∨ (t.run = .faulted ∧ t.cause = .arithOverflow) ∨ (t.run = .halted ∧ t.cause = s.cause) := by
  cases h with
  | overflow => exact .inr (.inl ⟨rfl, rfl⟩)
  | exit => exact .inr (.inr ⟨rfl, rfl⟩)
  | _ => exact .inl ⟨by simp, by simp⟩

/-- Where IN_WAIT was set for `input` alone, it is set after an instruction only if that `input` waits. -/
theorem ExecEffect.eq_waitInput_of_inWait {i : Instr} {s t : State} (h : ExecEffect s i t)
    (hs : s.inWait = true → i = .input) (ht : t.inWait = true) : i = .input ∧ t = waitInput s := by
  cases h with
  | overflow hi | result hi => exact absurd (hs (by simpa using ht)) hi.1
  | inputWait => exact ⟨rfl, rfl⟩
  | inputDone => simp at ht
  | jeq | jump | empty | printWait | printDone | exit => cases hs ht

/-- Where OUT_WAIT was set for `print` alone, it is set after an instruction only if that `print` waits. -/
theorem ExecEffect.eq_waitOutput_of_outWait {i : Instr} {s t : State} (h : ExecEffect s i t)
    (hs : s.outWait = true → i = .print) (ht : t.outWait = true) : i = .print ∧ t = waitOutput s := by
  cases h with
  | overflow hi | result hi => exact absurd (hs (by simpa using ht)) hi.2.1
  | printWait => exact ⟨rfl, rfl⟩
  | printDone => cases ht
  | inputDone => cases hs (by simpa using ht)
  | jeq | jump | empty | inputWait | exit => cases hs ht

/-- An instruction offers nothing itself: what is left was offered before. -/
theorem ExecEffect.mem_inOffers {i : Instr} {s t : State} (h : ExecEffect s i t) {w : Nat} (hw : w ∈ t.inOffers) :
    w ∈ s.inOffers := by
  cases h with
  | inputDone ho => exact ho ▸ List.mem_cons_of_mem _ (by simpa using hw)
  | _ => simpa using hw

/-- What has been printed was printed before or is the accumulator. -/
theorem ExecEffect.mem_outLog {i : Instr} {s t : State} (h : ExecEffect s i t) {v : Int} (hv : v ∈ t.outLog) :
    v ∈ s.outLog ∨ v = readReg s 1 := by
  cases h with
  | printDone => simpa using hv
  | _ => exact .inl (by simpa using hv)

/-! ### The step -/

/-- No step writes what the host owns. -/
theorem StepEffect.keeps_host {s t : State} (h : StepEffect s t) :
    t.imem = s.imem ∧ t.progLen = s.progLen ∧ t.build = s.build ∧ t.rst = s.rst ∧ t.outReady = s.outReady := by
  cases h with
  | executed _ _ he => exact (exec_effect he).keeps_host
  | _ => simp

/-- Out of reset the PC moves only from an index in bounds, and by -15 to +16 (10_state.md R27). -/
theorem StepEffect.pc_move {s t : State} (h : StepEffect s t) (hrst : s.rst = false) :
    (t.pc ≠ s.pc → 0 ≤ s.pc ∧ s.pc ≤ (s.progLen : Int) - 1) ∧ -15 ≤ t.pc - s.pc ∧ t.pc - s.pc ≤ 16 := by
  cases h with
  | reset h1 => simp [hrst] at h1
  | executed hf hd he => exact ⟨fun _ => ⟨hf.low, Int.le_sub_one_of_lt hf.high⟩, (exec_effect he).pc_move (decode_wf hd)⟩
  | _ => simp

/-! ### The invariant -/

/-- The instruction memory is as complete as before where it and `N` are the same. -/
theorem imageLoaded_congr {s t : State} (himem : t.imem = s.imem) (hlen : t.progLen = s.progLen) :
    imageLoaded t = imageLoaded s := by
  simp only [imageLoaded, himem, hlen]

/-- The conditions on the build parameters as facts about numbers (00_scope.md R7, R10). -/
theorem build_wf_iff (b : Build) :
    b.wf = true ↔ 2 ≤ b.xlen ∧ minInt b.pcw ≤ -15 ∧ (b.imemDepth : Int) + 15 ≤ maxInt b.pcw := by
  simp [Build.wf, and_assoc]

/-- No wait is pending where nothing can be executed. -/
theorem Inv.waits_clear {s : State} (h : Inv s) (hi : currentInstr s = none) :
    s.inWait = false ∧ s.outWait = false := by
  constructor
  · by_contra hw
    have := (h.in_wait (by simpa using hw)).2.2
    simp [hi] at this
  · by_contra hw
    have := (h.out_wait (by simpa using hw)).2.2
    simp [hi] at this

/-- A fault entered where nothing can be executed keeps the invariant. -/
theorem Inv.enterFault {s : State} {c : Cause} (h : Inv s) (hrst : s.rst = false) (hc : c ≠ .none)
    (hi : currentInstr s = none) : Inv (enterFault c s) := by
  obtain ⟨hin, hout⟩ := h.waits_clear hi
  exact { h with
    cause_iff := iff_of_true hc rfl
    in_wait := fun hw => absurd hw (by simp [hin])
    out_wait := fun hw => absurd hw (by simp [hout])
    in_reset := fun hr => absurd hr (by simp [hrst]) }

/-- The execution of a decoded word keeps the invariant. -/
theorem Inv.executed {s t : State} {w : Word8} {i : Instr} (h : Inv s) (hf : Fetches s w) (hd : decode w = .instr i)
    (he : ExecEffect s i t) : Inv t := by
  obtain ⟨himem, hlen, hbuild, hrst, -⟩ := he.keeps_host
  have hx : 1 ≤ s.build.xlen := le_of_lt ((build_wf_iff _).1 h.build_wf).1
  have hcur : currentInstr s = some i := currentInstr_of_word hf.fetch_eq hd
  have hmove := he.pc_move (decode_wf hd)
  have hlow := hf.low
  have hhigh := hf.high
  have hcause : s.cause = .none := by
    by_contra hc
    have := h.cause_iff.1 hc
    simp [hf.run] at this
  have hregs := he.regs_inRange hx h.regs_range
  constructor
  case build_wf => rw [hbuild]; exact h.build_wf
  case regs_range => rw [hbuild]; exact hregs
  case progLen_le => rw [hbuild, hlen]; exact h.progLen_le
  case imem_wf => rw [himem]; exact h.imem_wf
  case imem_depth => rw [hbuild, himem]; exact h.imem_depth
  case loaded => rw [hrst, imageLoaded_congr himem hlen]; exact h.loaded
  case pc_low => omega
  case pc_high => omega
  case cause_iff =>
    rcases he.status_cases with hsame | ⟨hr, hc⟩ | ⟨hr, hc⟩
    · rw [hsame.run, hsame.cause]; exact h.cause_iff
    · simp [hr, hc]
    · simp [hr, hc, hcause]
  case in_wait =>
    intro hw
    have hin : s.inWait = true → i = .input := fun hs => Option.some.inj (hcur.symm.trans (h.in_wait hs).2.2)
    obtain ⟨rfl, rfl⟩ := he.eq_waitInput_of_inWait hin hw
    exact ⟨hf.rst, hf.run, hcur⟩
  case out_wait =>
    intro hw
    have hout : s.outWait = true → i = .print := fun hs => Option.some.inj (hcur.symm.trans (h.out_wait hs).2.2)
    obtain ⟨rfl, rfl⟩ := he.eq_waitOutput_of_outWait hout hw
    exact ⟨hf.rst, hf.run, hcur⟩
  case offers_width =>
    intro v hv
    rw [hbuild]
    exact h.offers_width v (he.mem_inOffers hv)
  case out_range =>
    intro v hv
    rw [hbuild]
    rcases he.mem_outLog hv with hold | rfl
    · exact h.out_range v hold
    · exact h.regs_range 1
  case in_reset =>
    intro hr
    rw [hrst, hf.rst] at hr
    cases hr

/-- Nothing can be executed out of bounds. -/
theorem currentInstr_outOfRange {s : State} (ho : s.pc < 0 ∨ (s.progLen : Int) ≤ s.pc) : currentInstr s = none := by
  simp only [currentInstr, fetch_outOfRange ho]

/-- Nothing can be executed where the word is illegal. -/
theorem currentInstr_illegal {s : State} {w : Word8} {why : IllegalWord} (hf : Fetches s w)
    (hd : decode w = .illegal why) : currentInstr s = none := by
  simp only [currentInstr, hf.fetch_eq, hd]

/-- Settles O14, by the cases of a step: under the invariant a reset edge changes nothing. -/
theorem invKeptByStep : Obligations.InvKeptByStep := by
  intro s t h hstep
  cases step_effect hstep with
  | reset hrst => exact (h.in_reset hrst).symm ▸ h
  | held => exact h
  | outOfRange hrst _ ho => exact h.enterFault hrst (by decide) (currentInstr_outOfRange ho)
  | illegal hf hd => exact h.enterFault hf.rst (by decide) (currentInstr_illegal hf hd)
  | executed hf hd he => exact h.executed hf hd (exec_effect he)

/-- Under the invariant the PC fits its register of `PCW` bits (00_scope.md R10, 10_state.md R27). -/
theorem Inv.pc_fits {s : State} (h : Inv s) :
    1 ≤ s.build.pcw ∧ minInt s.build.pcw ≤ s.pc ∧ s.pc ≤ maxInt s.build.pcw := by
  obtain ⟨-, hmin, hmax⟩ := (build_wf_iff _).1 h.build_wf
  have hlow := h.pc_low
  have hhigh := h.pc_high
  have hlen := h.progLen_le
  refine ⟨Nat.one_le_iff_ne_zero.2 fun h0 => ?_, by omega, by omega⟩
  rw [h0] at hmin
  exact absurd hmin (by decide)

/-- Settles O17: the move by the cases of a step, the range by the invariant. -/
theorem pcNeverWraps : Obligations.PcNeverWraps := by
  refine ⟨fun s t hrst hstep => (step_effect hstep).pc_move hrst, fun s t h hstep => ?_, fun s h => ?_⟩
  · have ht := invKeptByStep s t h hstep
    exact ⟨ht.pc_low, ht.pc_high, ht.pc_fits.2⟩
  · obtain ⟨hpcw, hmin, hmax⟩ := h.pc_fits
    exact ⟨sext_twos_of_fits hpcw hmin hmax, twos_lt _ _⟩

/-- Settles O18, by the cases of a step. -/
theorem stepKeepsHostPart : Obligations.StepKeepsHostPart :=
  fun _ _ hstep => (step_effect hstep).keeps_host

/-! ### Frames -/

/-- Settles O20, by the cases of an instruction's effect. -/
theorem onlyTheTablesRegister : Obligations.OnlyTheTablesRegister :=
  fun _ _ _ _ he hr => (exec_effect he).readReg_of_not_written hr

/-- The frame of an instruction with a destination, other than `input`. -/
theorem ExecEffect.result_frame {i : Instr} {s t : State} {rd : RegIdx} (h : ExecEffect s i t)
    (hrd : writtenReg i = some rd) (hin : i ≠ .input) :
    (∀ r, r ≠ rd → readReg t r = readReg s r) ∧ ChannelsSame s t ∧ HostPartSame s t ∧
    ((RunSame s t ∧ t.pc = s.pc + 1) ∨ FaultEntered .arithOverflow s t) := by
  have hregs : ∀ r, r ≠ rd → readReg t r = readReg s r := fun r hr =>
    h.readReg_of_not_written fun hw => hr (Option.some.inj (hw.symm.trans hrd))
  rcases h.result_cases hrd hin with ⟨-, rfl⟩ | ⟨-, v, rfl⟩
  · have hfault := faultEntered_enterFault .arithOverflow s
    exact ⟨hregs, hfault.channels, h.hostPartSame, .inr hfault⟩
  · refine ⟨hregs, ?_, h.hostPartSame, .inl ⟨⟨by simp, by simp⟩, by simp⟩⟩
    constructor <;> simp

/-- Settles O32. -/
theorem arithFrame : Obligations.ArithFrame := by
  rintro s t rd rs imm (he | he | he)
  all_goals exact (exec_effect he).result_frame rfl (by simp)

/-- Settles O47, by what `input` and `print` can do: wait or transfer. -/
theorem channelInstrFrame : Obligations.ChannelInstrFrame := by
  constructor
  · intro s t he
    have heff := exec_effect he
    have hregs : ∀ r, r ≠ 1 → readReg t r = readReg s r := fun r hr =>
      heff.readReg_of_not_written fun hw => hr (Option.some.inj hw).symm
    rcases execInput_cases he with ⟨-, rfl⟩ | ⟨w, rest, -, rfl⟩
    · exact ⟨hregs, ⟨rfl, rfl⟩, heff.hostPartSame, rfl, rfl⟩
    · exact ⟨hregs, ⟨by simp, by simp⟩, heff.hostPartSame, by simp, by simp⟩
  · intro s t he
    have heff := exec_effect he
    have hregs : RegsSame s t := fun r => heff.readReg_of_not_written (by simp [writtenReg])
    rcases execPrint_cases he with ⟨-, rfl⟩ | ⟨-, rfl⟩
    · exact ⟨hregs, ⟨rfl, rfl⟩, heff.hostPartSame, rfl, rfl⟩
    · exact ⟨hregs, ⟨rfl, rfl⟩, heff.hostPartSame, rfl, rfl⟩

/-- Settles O39: both transfers are an advance of the PC. -/
theorem controlFrame : Obligations.ControlFrame := by
  rintro s t i (⟨rd, rs, imm, rfl⟩ | ⟨off, rfl⟩) he
  all_goals
    obtain rfl := Host.Outcome.next.inj he
    exact advance_frame _ s

/-! ### Register 0 -/

/-- A well-formed instruction does not name r0 as its destination (30_encoding.md R68). -/
theorem writtenReg_ne_zero_of_wf {i : Instr} (h : i.wf = true) : writtenReg i ≠ some 0 := by
  cases i with
  | add rd rs imm | sub rd rs imm | set rd rs imm =>
    intro hw
    obtain rfl : rd = 0 := Option.some.inj hw
    cases h
  | _ => simp [writtenReg, accumulator]

/-- A write to r0 is discarded (10_state.md R18; log entry 12). -/
theorem readReg_writeReg_zero (s : State) (v : Int) (r : RegIdx) : readReg (writeReg 0 v s) r = readReg s r := by
  rw [readReg_writeReg, if_neg (fun hc => hc.2 rfl)]

/-- Settles O23. -/
theorem registerZeroReadsZero : Obligations.RegisterZeroReadsZero :=
  ⟨readReg_zero, readReg_writeReg_zero, fun _ _ hd => writtenReg_ne_zero_of_wf (decode_wf hd),
    fun _ t _ _ => readReg_zero t⟩

/-- What an instruction with destination r0, other than `input`, does: a fault or a bare PC + 1. -/
theorem exec_destZero {s : State} {i : Instr} (hrd : writtenReg i = some 0) (hin : i ≠ .input) :
    (∀ w, decode w ≠ .instr i) ∧
    (overflows s i = true → ∃ t, exec i s = .next t ∧ FaultEntered .arithOverflow s t) ∧
    (overflows s i = false → ∃ t, exec i s = .next t ∧ RegsSame s t ∧ RunSame s t ∧ t.pc = s.pc + 1) := by
  obtain ⟨t, he⟩ := exec_answers i s
  refine ⟨fun w hd => writtenReg_ne_zero_of_wf (decode_wf hd) hrd, fun hov => ⟨t, he, ?_⟩, fun hov => ⟨t, he, ?_⟩⟩
  · rcases (exec_effect he).result_cases hrd hin with ⟨-, rfl⟩ | ⟨hno, -⟩
    · exact faultEntered_enterFault _ s
    · simp [hov] at hno
  · rcases (exec_effect he).result_cases hrd hin with ⟨hyes, -⟩ | ⟨-, v, rfl⟩
    · simp [hov] at hyes
    · exact ⟨readReg_writeReg_zero s v, ⟨by simp, by simp⟩, by simp⟩

/-- Settles O33. -/
theorem destZeroDiscardsWrite : Obligations.DestZeroDiscardsWrite := by
  rintro s rs imm i (rfl | rfl | rfl)
  all_goals exact exec_destZero rfl (by simp)

/-! ### Reset and the status word -/

/-- Settles O12. -/
theorem resetStateValues : Obligations.ResetStateValues :=
  ⟨readReg_coreReset State.reset, rfl, rfl, rfl, rfl, rfl, rfl⟩

/-- Settles O13: the empty program is loaded, and nothing is offered or printed. -/
theorem invAtReset : Obligations.InvAtReset where
  build_wf := by decide
  regs_range r := by
    rw [← coreReset_reset, readReg_coreReset]
    exact inRange_zero _
  progLen_le := Nat.zero_le _
  imem_wf := Memory.wf_reset
  imem_depth a _ := Memory.read_nil a
  loaded _ := rfl
  pc_low := by decide
  pc_high := by decide
  cause_iff := by decide
  in_wait := by decide
  out_wait := by decide
  offers_width := List.forall_mem_nil _
  out_range := List.forall_mem_nil _
  in_reset _ := rfl

/-- The parts of a six-bit word laid out as STATUS (10_state.md R30). -/
theorem extract_statusLayout (o i : Bool) (c r : BitVec 2) :
    (BitVec.ofBool o ++ BitVec.ofBool i ++ c ++ r).extractLsb' 0 2 = r ∧
    (BitVec.ofBool o ++ BitVec.ofBool i ++ c ++ r).extractLsb' 2 2 = c ∧
    (BitVec.ofBool o ++ BitVec.ofBool i ++ c ++ r).getLsbD 4 = i ∧
    (BitVec.ofBool o ++ BitVec.ofBool i ++ c ++ r).getLsbD 5 = o := by
  revert o i c r
  decide

/-- Settles O24: the layout of the word, then the codes of the run state and of the cause. -/
theorem statusWordFields : Obligations.StatusWordFields := by
  intro s
  obtain ⟨hstate, hcause, hin, hout⟩ :=
    extract_statusLayout s.outWait s.inWait (causeCode s.cause) (stateCode s.run)
  refine ⟨hstate.trans ?_, hcause.trans ?_, hin, hout, fun h => ?_⟩
  · cases s.run <;> rfl
  · cases s.cause <;> rfl
  · have hcode : stateCode s.run = 0b11#2 := hstate.symm.trans h
    revert hcode
    cases s.run <;> decide

end Sys2Proof.Machine

/-! Memory and the two channels: the waits of `input` and `print`, the host's duties, the rendering of what was printed,
and that a run shows nothing but its inputs. -/

namespace Sys2Proof.Machine

/-! ### The two channel instructions, one equation per state of the channel -/

theorem exec_input_wait {s : State} (h : s.inOffers = []) : exec .input s = .next (waitInput s) := by
  simp only [exec, execInput, inRead_nil h]

theorem exec_input_offered {s : State} {w : Nat} {rest : List Nat} (h : s.inOffers = w :: rest) :
    exec .input s =
      .next (advance 0 (writeReg 1 (sext s.build.xlen w) { s with inOffers := rest, inWait := false })) := by
  simp only [exec, execInput, inRead_cons h, accumulator]

theorem exec_print_wait {s : State} (h : s.outReady = false) : exec .print s = .next (waitOutput s) := by
  simp only [exec, execPrint, outWrite_notReady _ h]

theorem exec_print_ready {s : State} (h : s.outReady = true) :
    exec .print s = .next (advance 0 { s with outLog := s.outLog ++ [readReg s 1], outWait := false }) := by
  simp only [exec, execPrint, outWrite_ready _ h, accumulator]

/-- The core drives the channels while it runs out of reset. -/
theorem drivesChannels_of_running {s : State} (hrst : s.rst = false) (hrun : s.run = .running) :
    drivesChannels s = true := by
  simp [drivesChannels, hrst, hrun]

/-- Settles O41: with no offer `input` is the wait, and IN_WAIT is what drives `in_ready`. -/
theorem inputWaits : Obligations.InputWaits := by
  intro s hnone
  obtain ⟨-, -, hbit, -, -⟩ := statusWordFields (waitInput s)
  refine ⟨waitInput s, exec_input_wait hnone, rfl, hbit, ?_, fun hrst hrun => ?_⟩
  · simp [inValid, hnone]
  · have hdrives : drivesChannels (waitInput s) = true := drivesChannels_of_running hrst hrun
    simp [inReady, hdrives]

/-- Settles O43: with no acceptance `print` is the wait, and OUT_WAIT is what drives `out_valid` and `out_data`. -/
theorem printWaits : Obligations.PrintWaits := by
  intro s hnot
  obtain ⟨-, -, -, hbit, -⟩ := statusWordFields (waitOutput s)
  refine ⟨waitOutput s, exec_print_wait hnot, rfl, hbit, fun hrst hrun => ?_⟩
  have hdrives : drivesChannels (waitOutput s) = true := drivesChannels_of_running hrst hrun
  have hvalid : outValid (waitOutput s) = true := by simp [outValid, hdrives]
  exact ⟨hvalid, by simp [outData, hvalid]⟩

/-! ### Waits have no timeout -/

/-- A fetched legal word is executed (40_executor.md R94). -/
theorem step_executed {s : State} {w : Word8} {i : Instr} (hf : Fetches s w) (hd : decode w = .instr i) :
    step s = exec i s := by
  simp [step, hf.rst, hf.run, hf.fetch_eq, hd]

/-- A step into a state that steps to itself is the whole of every longer run. -/
theorem run_succ_of_step_fixed {s t : State} (hs : step s = .next t) (ht : step t = .next t) (k : Nat) :
    Sys2Proof.core.run (k + 1) s = .next t :=
  (run_succ k hs).trans (run_fixed ht k)

/-- An `input` with no offer waits through any run, and is done one step after an offer (20_memory.md R47). -/
theorem input_wait_until_offer {s : State} {w : Word8} (k : Nat) (hf : Fetches s w) (hd : decode w = .instr .input)
    (hnone : s.inOffers = []) :
    Sys2Proof.core.run (k + 1) s = .next (waitInput s) ∧
    ∀ (v : Int) (t : State), hostAct (.offerInput v) (waitInput s) = .next t →
      ∃ u, step t = .next u ∧ u.pc = s.pc + 1 ∧ u.inWait = false := by
  constructor
  · have hf' : Fetches (waitInput s) w := hf.congr rfl rfl rfl rfl rfl
    exact run_succ_of_step_fixed ((step_executed hf hd).trans (exec_input_wait hnone))
      ((step_executed hf' hd).trans (exec_input_wait hnone)) k
  · intro v t hact
    obtain ⟨hft, hpc, hoffer⟩ : Fetches t w ∧ t.pc = s.pc ∧ t.inOffers = [twos s.build.xlen v] := by
      cases hostAct_effect hact with
      | offerInput => exact ⟨hf.congr rfl rfl rfl rfl rfl, rfl, by simp [hnone]⟩
    exact ⟨_, (step_executed hft hd).trans (exec_input_offered hoffer), by simp [hpc], by simp⟩

/-- A `print` not accepted waits through any run, and is done one step after the host accepts (20_memory.md R48). -/
theorem print_wait_until_accept {s : State} {w : Word8} (k : Nat) (hf : Fetches s w) (hd : decode w = .instr .print)
    (hnot : s.outReady = false) :
    Sys2Proof.core.run (k + 1) s = .next (waitOutput s) ∧
    ∀ t : State, hostAct (.setOutReady true) (waitOutput s) = .next t →
      ∃ u, step t = .next u ∧ u.pc = s.pc + 1 ∧ u.outWait = false ∧ u.outLog = s.outLog ++ [readReg s 1] := by
  constructor
  · have hf' : Fetches (waitOutput s) w := hf.congr rfl rfl rfl rfl rfl
    exact run_succ_of_step_fixed ((step_executed hf hd).trans (exec_print_wait hnot))
      ((step_executed hf' hd).trans (exec_print_wait hnot)) k
  · intro t hact
    cases hostAct_effect hact
    have hft : Fetches { waitOutput s with outReady := true } w := hf.congr rfl rfl rfl rfl rfl
    exact ⟨_, (step_executed hft hd).trans (exec_print_ready rfl), by simp, rfl, rfl⟩

/-- Settles O44: the wait is a fixed point of the step, which the host's action ends. -/
theorem waitHasNoTimeout : Obligations.WaitHasNoTimeout :=
  ⟨fun _ _ k hf hd hnone => input_wait_until_offer k hf hd hnone,
    fun _ _ k hf hd hnot => print_wait_until_accept k hf hd hnot⟩

/-! ### The host's duties -/

/-- Settles O48: each breach falls in the branch of `hostAct` that refuses it; the write is the memory's. -/
theorem hostDutiesAreRefused : Obligations.HostDutiesAreRefused := by
  refine ⟨fun s a w hrst => ?_, fun s n hrst => ?_, fun s hoffers => ?_, fun s a w hrst ha => ?_,
    fun s a w hrst ha => ?_, fun s n hrst hn => ?_, fun s a hrst ha hnone => ?_, fun s v hv => ?_⟩
  · simp [hostAct, hrst]
  · simp [hostAct, hrst]
  · simp [hostAct, hoffers]
  · refine ⟨_, hostAct_writeImem hrst ha, ?_, fun b hb => ?_⟩
    · rw [Memory.read_write, if_pos rfl]
    · rw [Memory.read_write, if_neg hb]
  · simp [hostAct, hrst, ha]
  · simp [hostAct, hrst, hn]
  · have hloaded : imageLoaded s ≠ true := fun h => by
      have hsome := (imageLoaded_iff s).1 h a ha
      rw [hnone] at hsome
      cases hsome
    simp [hostAct, hrst, hloaded]
  · simp [hostAct, (inRange_false_iff s.build v).2 hv]

/-! ### Decimal text -/

theorem digit_digitChar {d : Nat} (hd : d < 10) : digit (digitChar d) = some d := by
  revert d
  decide

/-- Digits are read from the left: a last digit is added to ten times what stands before it. -/
theorem digitsFrom_append_digit {cs : List Char} {acc n d : Nat} (h : digitsFrom acc cs = some n) (hd : d < 10) :
    digitsFrom acc (cs ++ [digitChar d]) = some (10 * n + d) := by
  induction cs generalizing acc with
  | nil =>
    obtain rfl : acc = n := Option.some.inj h
    simp [digitsFrom, digit_digitChar hd]
  | cons c cs ih =>
    rw [List.cons_append]
    unfold digitsFrom at h ⊢
    cases hc : digit c with
    | none => simp [hc] at h
    | some e =>
      simp only [hc] at h
      exact ih h

/-- The digits of a number read back as the number, where the fuel is enough. -/
theorem digitsFrom_showNatFuel {fuel n : Nat} (h : n < fuel) : digitsFrom 0 (showNatFuel fuel n) = some n := by
  induction fuel generalizing n with
  | zero => omega
  | succ fuel ih =>
    unfold showNatFuel
    split
    · rename_i hlt
      simp [digitsFrom, digit_digitChar hlt]
    · rw [digitsFrom_append_digit (ih (n := n / 10) (by omega)) (Nat.mod_lt n (by decide)), Nat.div_add_mod]

theorem showNat_ne_nil (n : Nat) : showNat n ≠ [] := by
  unfold showNat showNatFuel
  split <;> simp

/-- Text that is not empty is a number when its characters are digits. -/
theorem parseNat_of_ne_nil {cs : List Char} (h : cs ≠ []) : parseNat cs = digitsFrom 0 cs := by
  cases cs with
  | nil => exact absurd rfl h
  | cons c cs => rfl

theorem parseNat_showNat (n : Nat) : parseNat (showNat n) = some n :=
  (parseNat_of_ne_nil (showNat_ne_nil n)).trans (digitsFrom_showNatFuel (Nat.lt_succ_self n))

/-- A number without a sign is a signed number: neither sign is a digit. -/
theorem parseSigned_of_parseNat {cs : List Char} {n : Nat} (h : parseNat cs = some n) :
    parseSigned cs = some (n : Int) := by
  unfold parseSigned
  split
  · cases h
  · cases h
  · rw [h]
    rfl

/-- A minus sign negates the number after it. -/
theorem parseSigned_minus {cs : List Char} {n : Nat} (h : parseNat cs = some n) :
    parseSigned ('-' :: cs) = some (-(n : Int)) := by
  rw [parseSigned, h]
  rfl

/-- Every integer's decimal reads back as the integer (30_encoding.md R79, R88). -/
theorem parseSigned_showInt (v : Int) : parseSigned (showInt v) = some v := by
  unfold showInt
  split
  · have hback : -(((-v).toNat : Nat) : Int) = v := by omega
    rw [parseSigned_minus (parseNat_showNat _), hback]
  · have hback : ((v.toNat : Nat) : Int) = v := by omega
    rw [parseSigned_of_parseNat (parseNat_showNat _), hback]

/-- Settles O59: the digits are `showInt`'s, and the rendering is a map over the values. -/
theorem outputsRenderedInOrder : Obligations.OutputsRenderedInOrder := by
  refine ⟨fun v => ⟨showInt v, rfl, parseSigned_showInt v⟩, fun s => ⟨List.length_map renderValue, fun k v hk => ?_⟩⟩
  rw [renderOutput, List.getElem?_map, hk, Option.map_some]

/-! ### A run shows nothing but its inputs

`rehost b m log s` is `s` in another build, with another memory, and with `log` printed before it. Where the other build
has the same `XLEN` and the other memory the same words below `N`, the step commutes with it; so two runs from reset with
equal inputs are both the rehosting of one run. -/

/-- The same core in another build, with another memory, after values already printed. -/
def rehost (b : Build) (m : Memory) (log : List Int) (s : State) : State :=
  { s with build := b, imem := m, outLog := log ++ s.outLog }

/-- The build's `XLEN` and the memory's words below `N` are those of `s`. -/
structure SameProgram (b : Build) (m : Memory) (s : State) : Prop where
  xlen : b.xlen = s.build.xlen
  words : ∀ a, a < s.progLen → Memory.read m a = Memory.read s.imem a

/-- An outcome with its next state, if it has one, replaced by `f` of it. -/
def mapNext (f : State → State) : Host.Outcome State Fault Refusal → Host.Outcome State Fault Refusal
  | .next s => .next (f s)
  | .fault r => .fault r
  | .refused r => .refused r

theorem mapNext_eq_next {f : State → State} {o : Host.Outcome State Fault Refusal} {t : State}
    (h : mapNext f o = .next t) : ∃ u, o = .next u ∧ f u = t := by
  cases o with
  | next u => exact ⟨u, rfl, Host.Outcome.next.inj h⟩
  | fault r => cases h
  | refused r => cases h

/-- The range check looks at `XLEN` alone. -/
theorem checked_congr {b c : Build} (h : b.xlen = c.xlen) : checked b = checked c := by
  funext v
  have hrange : inRange b v = inRange c v := by rw [inRange, inRange, h]
  rw [checked, checked, hrange]

theorem aluAdd_congr {b c : Build} (h : b.xlen = c.xlen) : aluAdd b = aluAdd c := by
  funext x y m
  simp only [aluAdd, checked_congr h]

theorem aluSub_congr {b c : Build} (h : b.xlen = c.xlen) : aluSub b = aluSub c := by
  funext x y m
  simp only [aluSub, checked_congr h]

section
variable {b : Build} {m : Memory} (log : List Int) {s : State}

theorem readReg_rehost (r : RegIdx) : readReg (rehost b m log s) r = readReg s r := rfl

theorem writeReg_rehost (r : RegIdx) (v : Int) : writeReg r v (rehost b m log s) = rehost b m log (writeReg r v s) := by
  fin_cases r <;> rfl

/-- The end of an arithmetic instruction commutes with rehosting. -/
theorem writeResult_rehost (rd : RegIdx) (r : Option Int) :
    writeResult rd r (rehost b m log s) = mapNext (rehost b m log) (writeResult rd r s) := by
  cases r with
  | none => rfl
  | some v =>
    simp only [writeResult, writeReg_rehost]
    rfl

/-- Every instruction commutes with rehosting: of the build only `XLEN` matters, and a printed value goes
to the end of the log. -/
theorem exec_rehost (h : SameProgram b m s) (i : Instr) :
    exec i (rehost b m log s) = mapNext (rehost b m log) (exec i s) := by
  have hx : (rehost b m log s).build.xlen = s.build.xlen := h.xlen
  cases i with
  | add rd rs imm =>
    simp only [exec, execAdd, portA, portB, readReg_rehost, aluAdd_congr hx, writeResult_rehost]
  | sub rd rs imm =>
    simp only [exec, execSub, portA, portB, readReg_rehost, aluSub_congr hx, writeResult_rehost]
  | set rd rs imm =>
    simp only [exec, execSet, portB, readReg_rehost, checked_congr hx, writeResult_rehost]
  | jeq | j | empty | exit => rfl
  | input =>
    cases ho : s.inOffers with
    | nil =>
      rw [exec_input_wait ho, exec_input_wait (show (rehost b m log s).inOffers = [] from ho)]
      rfl
    | cons w rest =>
      rw [exec_input_offered ho, exec_input_offered (show (rehost b m log s).inOffers = w :: rest from ho), hx]
      rfl
  | print =>
    cases ho : s.outReady with
    | false =>
      rw [exec_print_wait ho, exec_print_wait (show (rehost b m log s).outReady = false from ho)]
      rfl
    | true =>
      rw [exec_print_ready ho, exec_print_ready (show (rehost b m log s).outReady = true from ho)]
      simp [mapNext, rehost, advance, readReg]

/-- The fetch reads below `N` alone. -/
theorem fetch_rehost (h : SameProgram b m s) : fetch (rehost b m log s) = fetch s := by
  by_cases ho : s.pc < 0 ∨ (s.progLen : Int) ≤ s.pc
  · rw [fetch_outOfRange ho, fetch_outOfRange (s := rehost b m log s) ho]
  · have hword : Memory.read m s.pc.toNat = Memory.read s.imem s.pc.toNat := h.words _ (by omega)
    rw [fetch, fetch, show Memory.read (rehost b m log s).imem (rehost b m log s).pc.toNat = _ from hword]
    rfl

/-- The step commutes with rehosting. -/
theorem step_rehost (h : SameProgram b m s) : step (rehost b m log s) = mapNext (rehost b m log) (step s) := by
  unfold step
  rw [fetch_rehost log h, show (rehost b m log s).rst = s.rst from rfl, show (rehost b m log s).run = s.run from rfl]
  cases s.rst with
  | true => rfl
  | false =>
    cases s.run with
    | halted | faulted => rfl
    | running =>
      cases fetch s with
      | outOfRange | unwritten => rfl
      | word w =>
        cases hd : decode w with
        | illegal why => simp only [hd]; rfl
        | instr i => simp only [hd]; exact exec_rehost log h i

/-- A step leaves the program the same (20_memory.md R44). -/
theorem SameProgram.of_step {t : State} (h : SameProgram b m s) (hs : step s = .next t) : SameProgram b m t := by
  obtain ⟨himem, hlen, hbuild, -, -⟩ := stepKeepsHostPart s t hs
  exact ⟨by rw [hbuild]; exact h.xlen, by rw [himem, hlen]; exact h.words⟩

/-- Of two rehostings of one state both run or neither does, to rehostings of one state. -/
theorem run_rehost {b' : Build} {m' : Memory} (log' : List Int) {t : State} (h : SameProgram b m s)
    (h' : SameProgram b' m' s) {k : Nat} (hrun : Sys2Proof.core.run k (rehost b m log s) = .next t) :
    ∃ u, t = rehost b m log u ∧ Sys2Proof.core.run k (rehost b' m' log' s) = .next (rehost b' m' log' u) := by
  induction k generalizing s with
  | zero => exact ⟨s, (Host.Outcome.next.inj hrun).symm, rfl⟩
  | succ k ih =>
    obtain ⟨t₁, hstep, hrest⟩ := core_run_succ_cases Sys2Proof.core hrun
    obtain ⟨u, hu, rfl⟩ := mapNext_eq_next ((step_rehost log h).symm.trans hstep)
    have hstep' : step (rehost b' m' log' s) = .next (rehost b' m' log' u) := by
      rw [step_rehost log' h', hu, mapNext]
    rw [run_succ k hstep']
    exact ih (h.of_step hu) (h'.of_step hu) hrest

/-- A run from `start` shows of a rehosted state what that state shows with nothing printed before it. -/
theorem observe_rehost (start u : State) :
    observe start (rehost b m start.outLog u) = observe State.reset u := by
  simp [observe, rehost, readReg, State.reset]

end

/-- A state from reset is the rehosting of any other with the same inputs. -/
theorem rehost_eq_of_reset {s t : State} (hs : coreReset s = s) (ht : coreReset t = t) (hrst : t.rst = s.rst)
    (hlen : t.progLen = s.progLen) (hoffers : t.inOffers = s.inOffers) (hready : t.outReady = s.outReady) :
    rehost t.build t.imem t.outLog { s with outLog := [] } = t :=
  calc rehost t.build t.imem t.outLog { s with outLog := [] }
    _ = rehost t.build t.imem t.outLog { coreReset s with outLog := [] } := by rw [hs]
    _ = coreReset t := by simp [rehost, coreReset, hrst, hlen, hoffers, hready]
    _ = t := ht

/-- Settles O22: both states are rehostings of the first one with nothing printed, so the two runs go side by side. -/
theorem observationIsFunctionOfInputs : Obligations.ObservationIsFunctionOfInputs := by
  intro s1 s2 t1 k hrst1 hrst2 hreset1 hreset2 hxlen hlen hwords hoffers hready hrun
  have h1 := rehost_eq_of_reset hreset1 hreset1 rfl rfl rfl rfl
  have h2 := rehost_eq_of_reset hreset1 hreset2 (hrst2.trans hrst1.symm) hlen hoffers hready
  obtain ⟨u, rfl, hrun2⟩ := run_rehost (b' := s2.build) (m' := s2.imem) s1.outLog s2.outLog
    (s := { s1 with outLog := [] }) ⟨rfl, fun _ _ => rfl⟩ ⟨hxlen, hwords⟩ (h1.symm ▸ hrun)
  rw [h2] at hrun2
  exact ⟨_, hrun2, (observe_rehost s2 u).trans (observe_rehost s1 u).symm⟩

end Sys2Proof.Machine

/-! The encoding: a word's fields as numbers, the encoder and the decoder as inverses of each other, and where the
illegal words stand (30_encoding.md R56 to R72). -/

namespace Sys2Proof

/-! ### The fields of a word as numbers -/

theorem opField_toNat (w : Word8) : (opField w).toNat = w.toNat / 32 % 8 := by
  rw [opField, BitVec.extractLsb'_toNat, Nat.shiftRight_eq_div_pow]

theorem rdField_toNat (w : Word8) : (rdField w).toNat = w.toNat / 8 % 4 := by
  rw [rdField, BitVec.extractLsb'_toNat, Nat.shiftRight_eq_div_pow]

theorem rsField_toNat (w : Word8) : (rsField w).toNat = w.toNat / 2 % 4 := by
  rw [rsField, BitVec.extractLsb'_toNat, Nat.shiftRight_eq_div_pow]

theorem immField_toNat (w : Word8) : (immField w).toNat = w.toNat % 2 := by
  rw [immField, BitVec.extractLsb'_toNat, Nat.shiftRight_zero]

theorem offField_toNat (w : Word8) : (offField w).toNat = w.toNat % 32 := by
  rw [offField, BitVec.extractLsb'_toNat, Nat.shiftRight_zero]

theorem zeroField_toNat (w : Word8) : (zeroField w).toNat = w.toNat / 4 % 8 := by
  rw [zeroField, BitVec.extractLsb'_toNat, Nat.shiftRight_eq_div_pow]

theorem fnField_toNat (w : Word8) : (fnField w).toNat = w.toNat % 4 := by
  rw [fnField, BitVec.extractLsb'_toNat, Nat.shiftRight_zero]

/-- Bits put before `n` others count `2 ^ n` times. -/
theorem toNat_append_eq_add {m n : Nat} (x : BitVec m) (y : BitVec n) :
    (x ++ y).toNat = x.toNat * 2 ^ n + y.toNat := by
  rw [BitVec.toNat_append, ← Nat.shiftLeft_add_eq_or_of_lt y.isLt, Nat.shiftLeft_eq]

/-! ### Format R (30_encoding.md R57) -/

/-- R71's formula for a format R word. -/
theorem encodeR_toNat (op : BitVec 3) (rd rs : RegIdx) (imm : Imm1) :
    (encodeR op rd rs imm).toNat = op.toNat * 32 + rd.val * 8 + rs.val * 2 + imm.val := by
  simp only [encodeR, toNat_append_eq_add, BitVec.toNat_ofFin]
  omega

theorem opField_encodeR (op : BitVec 3) (rd rs : RegIdx) (imm : Imm1) : opField (encodeR op rd rs imm) = op := by
  apply BitVec.eq_of_toNat_eq
  rw [opField_toNat, encodeR_toNat]
  omega

theorem rdField_encodeR (op : BitVec 3) (rd rs : RegIdx) (imm : Imm1) :
    rdField (encodeR op rd rs imm) = BitVec.ofFin rd := by
  apply BitVec.eq_of_toNat_eq
  simp only [rdField_toNat, encodeR_toNat, BitVec.toNat_ofFin]
  omega

theorem rsField_encodeR (op : BitVec 3) (rd rs : RegIdx) (imm : Imm1) :
    rsField (encodeR op rd rs imm) = BitVec.ofFin rs := by
  apply BitVec.eq_of_toNat_eq
  simp only [rsField_toNat, encodeR_toNat, BitVec.toNat_ofFin]
  omega

theorem immField_encodeR (op : BitVec 3) (rd rs : RegIdx) (imm : Imm1) :
    immField (encodeR op rd rs imm) = BitVec.ofFin imm := by
  apply BitVec.eq_of_toNat_eq
  simp only [immField_toNat, encodeR_toNat, BitVec.toNat_ofFin]
  omega

/-- A format R word is put together from its own fields. -/
theorem encodeR_fields (w : Word8) :
    encodeR (opField w) (rdField w).toFin (rsField w).toFin (immField w).toFin = w := by
  apply BitVec.eq_of_toNat_eq
  rw [encodeR_toNat]
  simp only [BitVec.val_toFin, opField_toNat, rdField_toNat, rsField_toNat, immField_toNat]
  omega

/-- The operands of a format R word with a destination in range read back. -/
theorem decodeR_encodeR (mk : RegIdx → RegIdx → Imm1 → Instr) (op : BitVec 3) {rd : RegIdx} (rs : RegIdx) (imm : Imm1)
    (hrd : destOk rd = true) : decodeR mk (encodeR op rd rs imm) = .instr (mk rd rs imm) := by
  have hne : BitVec.ofFin rd ≠ 0#2 := by
    intro h
    obtain rfl : rd = 0 := congrArg BitVec.toFin h
    cases hrd
  rw [decodeR, rdField_encodeR, rsField_encodeR, immField_encodeR, if_neg hne]

/-! ### Format J (30_encoding.md R58) -/

/-- A format J word is put together from its own fields. -/
theorem opField_append_offField (w : Word8) : opField w ++ offField w = w := by
  apply BitVec.eq_of_toNat_eq
  rw [toNat_append_eq_add, opField_toNat, offField_toNat]
  omega

/-- The two's-complement field of a sign-extended number is the number. -/
theorem twos_sext (n w : Nat) : twos n (sext n w) = w % 2 ^ n := by
  have hlt : w % 2 ^ n < 2 ^ n := Nat.mod_lt w (Nat.two_pow_pos n)
  have hmod : sext n w % ((2 ^ n : Nat) : Int) = ((w % 2 ^ n : Nat) : Int) := by
    unfold sext
    dsimp only
    split
    · exact Int.emod_eq_of_lt (by omega) (by omega)
    · rw [Int.sub_emod_right]
      exact Int.emod_eq_of_lt (by omega) (by omega)
  rw [twos, hmod, Int.toNat_natCast]

theorem ofNat_twos_toNat (n : Nat) (v : Int) : (BitVec.ofNat n (twos n v)).toNat = twos n v :=
  Nat.mod_eq_of_lt (Machine.twos_lt n v)

/-- R71's formula for the word of `j`, for every offset. -/
theorem encode_j_toNat (off : Int) : ((encode (.j off)).toNat : Int) = 128 + off % 32 := by
  have htwos : (twos 5 off : Int) = off % 32 := by
    rw [twos]
    omega
  rw [encode, toNat_append_eq_add, ofNat_twos_toNat, Nat.cast_add, htwos]
  rfl

theorem offsetOk_iff (off : Int) : offsetOk off = true ↔ -16 ≤ off ∧ off ≤ 15 := by
  simp [offsetOk]

/-- An offset in range reads back from its field. -/
theorem sext_offField_encode_j {off : Int} (h : offsetOk off = true) :
    sext 5 (offField (encode (.j off))).toNat = off := by
  obtain ⟨hlo, hhi⟩ := (offsetOk_iff off).1 h
  rw [encode, offField, BitVec.extractLsb'_append_eq_right, ofNat_twos_toNat]
  exact Machine.sext_twos_of_fits (by decide) hlo hhi

/-! ### Format S (30_encoding.md R59) -/

/-- A format S word is its function field after six fixed bits. -/
theorem toNat_of_systemFields {w : Word8} (hop : opField w = 7#3) (hz : zeroField w = 0#3) :
    w.toNat = 224 + (fnField w).toNat := by
  have hop := congrArg BitVec.toNat hop
  have hz := congrArg BitVec.toNat hz
  simp only [opField_toNat, zeroField_toNat, BitVec.toNat_ofNat] at hop hz
  rw [fnField_toNat]
  omega

/-! ### The encoder and the decoder -/

/-- The word of a well-formed instruction decodes to the instruction. -/
theorem decode_encode {i : Instr} (h : i.wf = true) : decode (encode i) = .instr i := by
  cases i with
  | add rd rs imm | sub rd rs imm | set rd rs imm | jeq rd rs imm =>
    simp only [encode, decode, opField_encodeR, decodeR_encodeR _ _ rs imm h]
    rfl
  | j off =>
    have hop : opField (encode (.j off)) = 4#3 := BitVec.extractLsb'_append_eq_left
    simp only [decode, hop, sext_offField_encode_j h]
    rfl
  | empty | input | print | exit => rfl

/-- A legal word is in one of the three formats (30_encoding.md R57 to R59); in format R its instruction has the word
that its fields make up. -/
theorem decode_formats {w : Word8} {i : Instr} (h : decode w = .instr i) :
    ((opField w).toNat < 4 ∧ rdField w ≠ 0#2 ∧
      encode i = encodeR (opField w) (rdField w).toFin (rsField w).toFin (immField w).toFin) ∨
    (opField w = 4#3 ∧ i = .j (sext 5 (offField w).toNat)) ∨ (opField w = 7#3 ∧ decodeS w = .instr i) := by
  rcases decode_cases h with ⟨hop, hd⟩ | ⟨hop, hd⟩ | ⟨hop, hd⟩ | ⟨hop, hd⟩ | hj | hs
  case inr.inr.inr.inr.inl => exact .inr (.inl hj)
  case inr.inr.inr.inr.inr => exact .inr (.inr hs)
  all_goals
    obtain ⟨hrd, rfl⟩ := decodeR_cases hd
    exact .inl ⟨by rw [hop]; decide, hrd, by rw [hop]; rfl⟩

/-- A system word is the word of its instruction. -/
theorem encode_of_decodeS {w : Word8} {i : Instr} (hop : opField w = 7#3) (h : decodeS w = .instr i) :
    encode i = w := by
  obtain ⟨hz, hfn⟩ := decodeS_cases h
  apply BitVec.eq_of_toNat_eq
  rw [toNat_of_systemFields hop hz]
  rcases hfn with ⟨h0, rfl⟩ | ⟨h1, rfl⟩ | ⟨h2, rfl⟩ | ⟨h0, h1, h2, rfl⟩
  · rw [h0]
    rfl
  · rw [h1]
    rfl
  · rw [h2]
    rfl
  · have h3 : fnField w = 3#2 := by bv_omega
    rw [h3]
    rfl

/-- A legal word is the word of the instruction it decodes to. -/
theorem encode_of_decode {w : Word8} {i : Instr} (h : decode w = .instr i) : encode i = w := by
  rcases decode_formats h with ⟨-, -, hR⟩ | ⟨hop, rfl⟩ | ⟨hop, hS⟩
  · rw [hR, encodeR_fields]
  · have hfield : BitVec.ofNat 5 (twos 5 (sext 5 (offField w).toNat)) = offField w := by
      rw [twos_sext, Nat.mod_eq_of_lt (offField w).isLt, BitVec.ofNat_toNat, BitVec.setWidth_eq]
    rw [encode, hfield, ← hop, opField_append_offField]
  · exact encode_of_decodeS hop hS

/-- R71's words with register operands, for every destination. -/
theorem encode_toNat_formatR (rd rs : RegIdx) (imm : Imm1) :
    (encode (.add rd rs imm)).toNat = rd.val * 8 + rs.val * 2 + imm.val ∧
    (encode (.sub rd rs imm)).toNat = 32 + rd.val * 8 + rs.val * 2 + imm.val ∧
    (encode (.set rd rs imm)).toNat = 64 + rd.val * 8 + rs.val * 2 + imm.val ∧
    (encode (.jeq rd rs imm)).toNat = 96 + rd.val * 8 + rs.val * 2 + imm.val := by
  simp [encode, encodeR_toNat]

/-- Settles O1: the formulas hold for every operand, and decoding is field by field. -/
theorem decodeInvertsEncode : Obligations.DecodeInvertsEncode := by
  refine ⟨fun rd rs imm _ => ?_, fun off _ _ => encode_j_toNat off, rfl, rfl, rfl, rfl, fun i => decode_encode⟩
  rw [Nat.zero_add]
  exact encode_toNat_formatR rd rs imm

/-- Settles O2: an ill-formed instruction is no decoded one, since those are well-formed. -/
theorem encodeInvertsDecode : Obligations.EncodeInvertsDecode := by
  refine ⟨fun w i h => ⟨decode_wf h, encode_of_decode h⟩, encode_toNat_formatR, encode_j_toNat, fun w i hwf h => ?_⟩
  rw [decode_wf h] at hwf
  cases hwf

/-- The word of a well-formed instruction decodes to it, for a word written out. -/
theorem encode_eq_and_decode_eq {i : Instr} {w : Word8} (hwf : i.wf = true) (h : encode i = w) :
    encode i = w ∧ decode w = .instr i :=
  ⟨h, h ▸ decode_encode hwf⟩

/-- Settles O3: each word is computed by the encoder, and decodes because the decoder inverts it. -/
theorem workedEncodingsDecode : Obligations.WorkedEncodingsDecode :=
  ⟨encode_eq_and_decode_eq rfl rfl, encode_eq_and_decode_eq rfl rfl, encode_eq_and_decode_eq rfl rfl,
    encode_eq_and_decode_eq rfl rfl, encode_eq_and_decode_eq rfl rfl, encode_eq_and_decode_eq rfl rfl,
    encode_eq_and_decode_eq rfl rfl⟩

/-! ### Where the legal words stand (30_encoding.md R64) -/

/-- A legal word is in format R with a destination other than 0, in format J, or one of the four system words. -/
theorem legal_word_ranges {w : Word8} {i : Instr} (h : decode w = .instr i) :
    (w.toNat < 0x80 ∧ w.toNat / 8 % 4 ≠ 0) ∨ (0x80 ≤ w.toNat ∧ w.toNat < 0xA0) ∨
    (0xE0 ≤ w.toNat ∧ w.toNat < 0xE4) := by
  have hop := opField_toNat w
  rcases decode_formats h with ⟨hR, hrd, -⟩ | ⟨hJ, -⟩ | ⟨hS, hd⟩
  · refine .inl ⟨by omega, fun h0 => hrd (BitVec.eq_of_toNat_eq ?_)⟩
    rw [rdField_toNat, h0]
    rfl
  · rw [hJ, BitVec.toNat_ofNat] at hop
    omega
  · obtain ⟨hz, -⟩ := decodeS_cases hd
    have hw := toNat_of_systemFields hS hz
    omega

/-- Settles O6: no legal word stands in those ranges, and a step on an illegal word is the fault entry. -/
theorem illegalWordFaults : Obligations.IllegalWordFaults := by
  intro s w hf hrange
  cases hd : decode w with
  | instr i =>
    have := legal_word_ranges hd
    omega
  | illegal why =>
    exact ⟨_, Machine.step_illegal hf hd, Machine.faultEntered_enterFault _ s, rfl, hf.word⟩

end Sys2Proof

/-! The assembler: lines and tokens of the text, the errors and the words that come of it, and the disassembly that
reads back (30_encoding.md R73 to R88). -/

namespace Sys2Proof.Machine

/-! ### Whitespace and comments (30_encoding.md R75) -/

/-- A run of whitespace ends the token under way, as one blank does. -/
theorem splitTokens_append_run (l r : List Char) {run : List Char} (hne : run ≠ []) (h : ∀ c ∈ run, isBlank c = true) :
    splitTokens [] (l ++ run ++ r) = splitTokens [] l ++ splitTokens [] r := by
  cases run with
  | nil => exact absurd rfl hne
  | cons c cs =>
    obtain ⟨hc, hcs⟩ := List.forall_mem_cons.1 h
    rw [List.append_assoc, List.cons_append, splitTokens_append_blank _ _ _ hc, splitTokens_blanks_append hcs]

/-- Settles O60: the token lists agree, and the marker begins a token of its own. -/
theorem whitespaceAndCommentsDiscarded : Obligations.WhitespaceAndCommentsDiscarded := by
  constructor
  · intro cfg l r run b hne hblanks
    obtain ⟨hb, hrun⟩ := List.forall_mem_cons.1 fun c hc => (isBlank_iff c).2 (hblanks c hc)
    refine ⟨assembleLine_congr ?_, assembleLine_congr ?_, assembleLine_congr ?_⟩
    · rw [splitTokens_append_run l r hne hrun, splitTokens_append_blank l r [] hb]
    · rw [splitTokens_blanks_append hrun]
    · rw [← List.append_nil (l ++ run), splitTokens_append_run l [] hne hrun, splitTokens, if_pos rfl, List.append_nil]
  · intro cfg l tail b hb h1 h2
    obtain ⟨t, ts, htokens, ht⟩ := splitTokens_marker h1 h2 tail
    refine assembleLine_congr ?_
    rw [splitTokens_append_blank l _ [] ((isBlank_iff b).2 hb), htokens, dropComment_append _ ts ht]

/-! ### Lines (30_encoding.md R74) -/

theorem splitLines_lineFeed (cs : List Char) : splitLines (lineFeed :: cs) = [] :: splitLines cs := by
  rw [splitLines, if_pos rfl]

/-- A character other than LF begins the first line of what follows, or a line of its own. -/
theorem splitLines_cons {c : Char} (hc : c ≠ lineFeed) (cs : List Char) :
    splitLines (c :: cs) = (c :: (splitLines cs).headD []) :: (splitLines cs).tail := by
  rw [splitLines, if_neg hc]
  cases splitLines cs <;> rfl

theorem splitLines_eq_nil_iff (text : List Char) : splitLines text = [] ↔ text = [] := by
  cases text with
  | nil => exact iff_of_true rfl rfl
  | cons c cs =>
    by_cases hc : c = lineFeed
    · subst hc
      simp [splitLines_lineFeed]
    · simp [splitLines_cons hc]

theorem lineFeed_notMem_of_mem_splitLines {text l : List Char} (h : l ∈ splitLines text) : lineFeed ∉ l := by
  induction text generalizing l with
  | nil => cases h
  | cons c cs ih =>
    by_cases hc : c = lineFeed
    · subst hc
      rw [splitLines_lineFeed] at h
      rcases List.mem_cons.1 h with rfl | h
      · exact List.not_mem_nil
      · exact ih h
    · rw [splitLines_cons hc] at h
      cases hs : splitLines cs with
      | nil =>
        obtain rfl : l = [c] := by simpa [hs] using h
        simpa using Ne.symm hc
      | cons m ms =>
        rw [hs] at h ih
        rcases List.mem_cons.1 h with rfl | h
        · simpa using ⟨Ne.symm hc, ih List.mem_cons_self⟩
        · exact ih (List.mem_cons_of_mem m h)

/-- The first line ends at the first LF. -/
theorem splitLines_append_lineFeed {a : List Char} (ha : lineFeed ∉ a) (b : List Char) :
    splitLines (a ++ lineFeed :: b) = a :: splitLines b := by
  induction a with
  | nil => exact splitLines_lineFeed b
  | cons c cs ih =>
    obtain ⟨hc, hcs⟩ : ¬lineFeed = c ∧ lineFeed ∉ cs := by simpa using ha
    rw [List.cons_append, splitLines_cons (Ne.symm hc), ih hcs]
    rfl

/-- Text with no LF is one line. -/
theorem splitLines_of_lineFeed_notMem {text : List Char} (hne : text ≠ []) (h : lineFeed ∉ text) :
    splitLines text = [text] := by
  induction text with
  | nil => exact absurd rfl hne
  | cons c cs ih =>
    obtain ⟨hc, hcs⟩ : ¬lineFeed = c ∧ lineFeed ∉ cs := by simpa using h
    rw [splitLines_cons (Ne.symm hc)]
    by_cases he : cs = []
    · subst he
      rfl
    · rw [ih he hcs]
      rfl

/-- A character put before the first of some pieces stands before their join. -/
theorem intercalate_cons_head (sep : List Char) (c : Char) (l : List Char) (ls : List (List Char)) :
    List.intercalate sep ((c :: l) :: ls) = c :: List.intercalate sep (l :: ls) := by
  cases ls with
  | nil => simp
  | cons m ms => simp [List.intercalate_cons_cons]

/-- The lines joined by LF are the text, or the text less its final LF. -/
theorem intercalate_splitLines (text : List Char) :
    text = List.intercalate [lineFeed] (splitLines text) ∨
    text = List.intercalate [lineFeed] (splitLines text) ++ [lineFeed] := by
  induction text with
  | nil => exact .inl rfl
  | cons c cs ih =>
    cases hs : splitLines cs with
    | nil =>
      obtain rfl := (splitLines_eq_nil_iff cs).1 hs
      by_cases hc : c = lineFeed
      · subst hc
        exact .inr rfl
      · rw [splitLines_cons hc]
        exact .inl rfl
    | cons l ls =>
      rw [hs] at ih
      have hjoin : List.intercalate [lineFeed] (splitLines (c :: cs)) =
          c :: List.intercalate [lineFeed] (l :: ls) := by
        by_cases hc : c = lineFeed
        · subst hc
          rw [splitLines_lineFeed, hs, List.intercalate_cons_cons]
          rfl
        · rw [splitLines_cons hc, hs]
          exact intercalate_cons_head _ c l ls
      rw [hjoin, List.cons_append]
      exact ih.imp (congrArg (c :: ·)) (congrArg (c :: ·))

/-- Settles O53, by induction on the text for each of its parts. -/
theorem linesSplitAtLineFeed : Obligations.LinesSplitAtLineFeed := by
  refine fun text => ⟨fun l => lineFeed_notMem_of_mem_splitLines, splitLines_eq_nil_iff text,
    fun _ => intercalate_splitLines text, ?_⟩
  rintro a b rfl ha
  exact splitLines_append_lineFeed ha b

/-! ### Errors (30_encoding.md R83, R85) -/

theorem errorAt_eq_nil {α : Type} {arg : Nat} {r : Except AsmError α} (h : errorAt arg r = []) : ∃ x, r = .ok x := by
  cases r with
  | ok x => exact ⟨x, rfl⟩
  | error e => cases h

/-- A format R line that has errors has at least one: an operand that is not in order is named. -/
theorem checkR_errors_ne_nil {mk : RegIdx → RegIdx → Imm1 → Instr} {ts : List (List Char)} {es : List (Nat × AsmError)}
    (h : checkR mk ts = .errors es) : es ≠ [] := by
  unfold checkR at h
  split at h
  · split at h
    · cases h
    · rename_i hbad
      rintro rfl
      have hnil := LineResult.errors.inj h
      simp only [List.append_eq_nil_iff] at hnil
      obtain ⟨⟨hd, hs⟩, hi⟩ := hnil
      obtain ⟨rd, hrd⟩ := errorAt_eq_nil hd
      obtain ⟨rs, hrs⟩ := errorAt_eq_nil hs
      obtain ⟨imm, himm⟩ := errorAt_eq_nil hi
      exact hbad rd rs imm hrd hrs himm
  · cases h
    simp

theorem checkJ_errors_ne_nil {ts : List (List Char)} {es : List (Nat × AsmError)} (h : checkJ ts = .errors es) :
    es ≠ [] := by
  unfold checkJ at h
  split at h
  · split at h
    · cases h
    · cases h
      simp
  · cases h
    simp

theorem checkS_errors_ne_nil {i : Instr} {ts : List (List Char)} {es : List (Nat × AsmError)}
    (h : checkS i ts = .errors es) : es ≠ [] := by
  unfold checkS at h
  split at h
  · cases h
  · cases h
    simp

/-- A line that is no instruction has at least one error. -/
theorem assembleLine_errors_ne_nil {cfg : AsmConfig} {l : List Char} {es : List (Nat × AsmError)}
    (h : assembleLine cfg l = .errors es) : es ≠ [] := by
  unfold assembleLine checkTokens at h
  split at h
  · cases h
    simp
  · split_ifs at h
    · exact checkR_errors_ne_nil h
    · exact checkR_errors_ne_nil h
    · exact checkR_errors_ne_nil h
    · exact checkR_errors_ne_nil h
    · exact checkJ_errors_ne_nil h
    · exact checkS_errors_ne_nil h
    · exact checkS_errors_ne_nil h
    · exact checkS_errors_ne_nil h
    · exact checkS_errors_ne_nil h
    · cases h
      simp

/-- The diagnostics of the line with number `k`. -/
def lineDiagnostics (k : Nat) : LineResult → List Diagnostic
  | .ok _ => []
  | .errors es => es.map fun e => { line := k, arg := e.1, error := e.2 }

theorem mem_lineDiagnostics {k : Nat} {r : LineResult} {d : Diagnostic} :
    d ∈ lineDiagnostics k r ↔ ∃ es, r = .errors es ∧ d.line = k ∧ (d.arg, d.error) ∈ es := by
  cases r with
  | ok i => simp [lineDiagnostics]
  | errors es =>
    simp only [lineDiagnostics, List.mem_map, LineResult.errors.injEq, exists_eq_left']
    constructor
    · rintro ⟨e, he, rfl⟩
      exact ⟨rfl, he⟩
    · rintro ⟨rfl, he⟩
      exact ⟨_, he, rfl⟩

/-- The diagnostics of all lines, the first of which has number `k`. -/
def diagnosticsFrom (cfg : AsmConfig) (k : Nat) (ls : List (List Char)) : List Diagnostic :=
  (ls.zipIdx k).flatMap fun p => lineDiagnostics p.2 (assembleLine cfg p.1)

theorem diagnosticsFrom_cons (cfg : AsmConfig) (k : Nat) (l : List Char) (ls : List (List Char)) :
    diagnosticsFrom cfg k (l :: ls) = lineDiagnostics k (assembleLine cfg l) ++ diagnosticsFrom cfg (k + 1) ls := by
  rw [diagnosticsFrom, List.zipIdx_cons, List.flatMap_cons, diagnosticsFrom]

/-- Each diagnostic is an error of the line it names, and each error of each line is a diagnostic. -/
theorem mem_diagnosticsFrom_zero {cfg : AsmConfig} {ls : List (List Char)} {d : Diagnostic} :
    d ∈ diagnosticsFrom cfg 0 ls ↔
      ∃ l es, ls[d.line]? = some l ∧ assembleLine cfg l = .errors es ∧ (d.arg, d.error) ∈ es := by
  simp only [diagnosticsFrom, List.mem_flatMap, mem_lineDiagnostics, Prod.exists, List.mk_mem_zipIdx_iff_getElem?]
  constructor
  · rintro ⟨l, k, hl, es, hes, rfl, he⟩
    exact ⟨l, es, hl, hes, he⟩
  · rintro ⟨l, es, hl, hes, he⟩
    exact ⟨l, _, hl, es, hes, rfl, he⟩

/-- What the assembler can do: words and no diagnostic, one word for each line's instruction; or every diagnostic there
is, and no words. -/
theorem assembleLines_cases (cfg : AsmConfig) (k : Nat) (ls : List (List Char)) :
    (∃ ws, assembleLines cfg k ls = .words ws ∧ diagnosticsFrom cfg k ls = [] ∧
      List.Forall₂ (fun l w => ∃ i, assembleLine cfg l = .ok i ∧ w = encode i) ls ws) ∨
    (assembleLines cfg k ls = .rejected (diagnosticsFrom cfg k ls) ∧ diagnosticsFrom cfg k ls ≠ []) := by
  induction ls generalizing k with
  | nil => exact .inl ⟨[], rfl, rfl, .nil⟩
  | cons l ls ih =>
    rw [diagnosticsFrom_cons]
    cases hl : assembleLine cfg l with
    | ok i =>
      rcases ih (k + 1) with ⟨ws, hrest, hnil, hall⟩ | ⟨hrest, hne⟩
      · exact .inl ⟨encode i :: ws, by simp [assembleLines, hl, hrest], by simp [lineDiagnostics, hnil],
          .cons ⟨i, hl, rfl⟩ hall⟩
      · exact .inr ⟨by simp [assembleLines, hl, hrest, lineDiagnostics], by simp [hne]⟩
    | errors es =>
      have hes := assembleLine_errors_ne_nil hl
      rcases ih (k + 1) with ⟨ws, hrest, hnil, -⟩ | ⟨hrest, -⟩
      · exact .inr ⟨by simp [assembleLines, hl, hrest, lineDiagnostics, hnil], by simp [lineDiagnostics, hes]⟩
      · exact .inr ⟨by simp [assembleLines, hl, hrest, lineDiagnostics], by simp [lineDiagnostics, hes]⟩

/-- Rejected text has all its diagnostics reported, and at least one. -/
theorem assemble_eq_rejected_iff {cfg : AsmConfig} {text : List Char} {ds : List Diagnostic} :
    assemble cfg text = .rejected ds ↔ diagnosticsFrom cfg 0 (splitLines text) = ds ∧ ds ≠ [] := by
  rcases assembleLines_cases cfg 0 (splitLines text) with ⟨ws, hwords, hnil, -⟩ | ⟨hrej, hne⟩
  · rw [assemble, hwords, hnil]
    exact iff_of_false (by simp) fun ⟨h, hne⟩ => hne h.symm
  · rw [assemble, hrej, AsmResult.rejected.injEq]
    exact ⟨fun h => ⟨h, h ▸ hne⟩, And.left⟩

/-- Accepted text has one word for each line's instruction. -/
theorem forall₂_of_assemble {cfg : AsmConfig} {text : List Char} {ws : List Word8} (h : assemble cfg text = .words ws) :
    List.Forall₂ (fun l w => ∃ i, assembleLine cfg l = .ok i ∧ w = encode i) (splitLines text) ws := by
  rcases assembleLines_cases cfg 0 (splitLines text) with ⟨vs, hwords, -, hall⟩ | ⟨hrej, -⟩
  · obtain rfl : vs = ws := AsmResult.words.inj (hwords.symm.trans h)
    exact hall
  · cases hrej.symm.trans h

/-- Settles O52: the diagnostics are the errors of the lines, and a line that is no instruction has one. -/
theorem everyErrorIsReported : Obligations.EveryErrorIsReported := by
  refine fun cfg text => ⟨fun k l es hl hes => ?_, fun ds hds => ?_⟩
  · have hmem : ∀ e ∈ es, { line := k, arg := e.1, error := e.2 } ∈ diagnosticsFrom cfg 0 (splitLines text) :=
      fun e he => mem_diagnosticsFrom_zero.2 ⟨l, es, hl, hes, he⟩
    obtain ⟨e, he⟩ := List.exists_mem_of_ne_nil es (assembleLine_errors_ne_nil hes)
    exact ⟨_, assemble_eq_rejected_iff.2 ⟨rfl, List.ne_nil_of_mem (hmem e he)⟩, hmem⟩
  · obtain ⟨rfl, hne⟩ := assemble_eq_rejected_iff.1 hds
    exact ⟨hne, fun d => mem_diagnosticsFrom_zero.1⟩

/-! ### Words (30_encoding.md R86) -/

/-- The words are as many as the lines, in their order. -/
theorem word_of_line {cfg : AsmConfig} {text : List Char} {ws : List Word8} (h : assemble cfg text = .words ws) :
    ws.length = (splitLines text).length ∧ ∀ (k : Nat) (l : List Char), (splitLines text)[k]? = some l →
      ∃ i, assembleLine cfg l = .ok i ∧ ws[k]? = some (encode i) := by
  obtain ⟨hlen, hall⟩ := List.forall₂_iff_get.1 (forall₂_of_assemble h)
  refine ⟨hlen.symm, fun k l hk => ?_⟩
  obtain ⟨hlt, rfl⟩ := List.getElem?_eq_some_iff.1 hk
  obtain ⟨i, hi, hw⟩ := hall k hlt (hlen ▸ hlt)
  exact ⟨i, hi, List.getElem?_eq_some_iff.2 ⟨hlen ▸ hlt, hw⟩⟩

/-- Settles O51: without words there is a diagnostic, and so a line with errors. -/
theorem oneWordPerLine : Obligations.OneWordPerLine := by
  intro cfg text
  refine ⟨⟨fun hok => ?_, fun ⟨ws, hws⟩ l hl => ?_⟩, fun ws => word_of_line⟩
  · cases h : assemble cfg text with
    | words ws => exact ⟨ws, rfl⟩
    | rejected ds =>
      obtain ⟨hne, hds⟩ := (everyErrorIsReported cfg text).2 ds h
      obtain ⟨d, hd⟩ := List.exists_mem_of_ne_nil ds hne
      obtain ⟨l, es, hl, hes, -⟩ := hds d hd
      obtain ⟨i, hi⟩ := hok l (List.mem_of_getElem? hl)
      rw [hi] at hes
      cases hes
  · obtain ⟨k, hk⟩ := List.mem_iff_getElem?.1 hl
    obtain ⟨i, hi, -⟩ := (word_of_line hws).2 k l hk
    exact ⟨i, hi⟩

/-! ### Operands (30_encoding.md R77 to R79, R82) -/

theorem parseOffset_showInt (v : Int) :
    parseOffset (showInt v) = if offsetOk v then .ok v else .error .offsetOutOfRange := by
  rw [parseOffset, parseSigned_showInt]

/-- Settles O54: the decimal text reads back, and the range is the check that follows. -/
theorem offsetLiteralRange : Obligations.OffsetLiteralRange := by
  refine fun v => ⟨parseSigned_showInt v, fun hin => ?_, fun hout => ?_⟩
  · rw [parseOffset_showInt, if_pos ((offsetOk_iff v).2 hin)]
  · have hnot : ¬ offsetOk v = true := by
      rw [offsetOk_iff]
      omega
    rw [parseOffset_showInt, if_neg hnot]

theorem parseReg_showNat (range : AsmError) (r : RegIdx) : parseReg range ('#' :: showNat r.val) = .ok r := by
  simp [parseReg, parseNat_showNat]

theorem parseDest_showNat {rd : RegIdx} (h : destOk rd = true) : parseDest ('#' :: showNat rd.val) = .ok rd := by
  rw [parseDest, parseReg_showNat]
  exact if_pos h

theorem parseImm_showNat (imm : Imm1) : parseImm (showNat imm.val) = .ok imm := by
  rw [parseImm, parseNat_showNat]
  exact dif_pos imm.isLt

/-! ### Disassembly (30_encoding.md R88) -/

/-- The tokens of an instruction's text. -/
def renderTokens : Instr → List (List Char)
  | .add rd rs imm => [nameAdd, '#' :: showNat rd.val, '#' :: showNat rs.val, showNat imm.val]
  | .sub rd rs imm => [nameSub, '#' :: showNat rd.val, '#' :: showNat rs.val, showNat imm.val]
  | .set rd rs imm => [nameSet, '#' :: showNat rd.val, '#' :: showNat rs.val, showNat imm.val]
  | .jeq rd rs imm => [nameJeq, '#' :: showNat rd.val, '#' :: showNat rs.val, showNat imm.val]
  | .j off => [nameJ, showInt off]
  | .empty => [nameEmpty]
  | .input => [nameInput]
  | .print => [namePrint]
  | .exit => [nameExit]

/-- An instruction's text is its tokens with single spaces between them. -/
theorem render_eq_intercalate (i : Instr) : render i = List.intercalate [' '] (renderTokens i) := by
  cases i <;> simp [render, showR, renderTokens, List.intercalate_cons_cons]

/-- A well-formed instruction's tokens are its own. -/
theorem checkTokens_renderTokens {i : Instr} (h : i.wf = true) : checkTokens (renderTokens i) = .ok i := by
  cases i with
  | add rd rs imm | sub rd rs imm | set rd rs imm | jeq rd rs imm =>
    have hcheck : ∀ mk, checkR mk ['#' :: showNat rd.val, '#' :: showNat rs.val, showNat imm.val] =
        .ok (mk rd rs imm) := by
      intro mk
      rw [checkR, parseDest_showNat h, parseSrc, parseReg_showNat, parseImm_showNat]
    exact hcheck _
  | j off =>
    have hcheck : checkJ [showInt off] = .ok (.j off) := by
      rw [checkJ, parseOffset_showInt, if_pos (show offsetOk off = true from h)]
    exact hcheck
  | empty | input | print | exit => rfl

/-- A character that is no whitespace, no LF and no part of the default comment marker. -/
def plainChar (c : Char) : Bool := !isBlank c && c != lineFeed && c != '/'

/-- A token of plain characters. -/
def plainToken (t : List Char) : Bool := !t.isEmpty && t.all plainChar

theorem plainChar_iff (c : Char) : plainChar c = true ↔ isBlank c = false ∧ c ≠ lineFeed ∧ c ≠ '/' := by
  simp [plainChar, and_assoc]

theorem plainToken_iff (t : List Char) : plainToken t = true ↔ t ≠ [] ∧ ∀ c ∈ t, plainChar c = true := by
  simp [plainToken]

theorem plainChar_digitChar {d : Nat} (h : d < 10) : plainChar (digitChar d) = true := by
  revert d
  decide

theorem plainChar_of_mem_showNatFuel {fuel n : Nat} : ∀ c ∈ showNatFuel fuel n, plainChar c = true := by
  induction fuel generalizing n with
  | zero => exact List.forall_mem_nil _
  | succ fuel ih =>
    unfold showNatFuel
    split
    · rename_i h
      exact List.forall_mem_singleton.2 (plainChar_digitChar h)
    · exact List.forall_mem_append.2 ⟨ih, List.forall_mem_singleton.2 (plainChar_digitChar (Nat.mod_lt n (by decide)))⟩

theorem plainToken_showNat (n : Nat) : plainToken (showNat n) = true :=
  (plainToken_iff _).2 ⟨showNat_ne_nil n, plainChar_of_mem_showNatFuel⟩

theorem plainToken_cons {c : Char} {t : List Char} (hc : plainChar c = true) (ht : plainToken t = true) :
    plainToken (c :: t) = true :=
  (plainToken_iff _).2 ⟨List.cons_ne_nil c t, List.forall_mem_cons.2 ⟨hc, ((plainToken_iff t).1 ht).2⟩⟩

theorem plainToken_showInt (v : Int) : plainToken (showInt v) = true := by
  unfold showInt
  split
  · exact plainToken_cons rfl (plainToken_showNat _)
  · exact plainToken_showNat _

theorem renderTokens_plain (i : Instr) : ∀ t ∈ renderTokens i, plainToken t = true := by
  have hreg : ∀ r : RegIdx, plainToken ('#' :: showNat r.val) = true := fun _ =>
    plainToken_cons rfl (plainToken_showNat _)
  cases i with
  | add rd rs imm | sub rd rs imm | set rd rs imm | jeq rd rs imm =>
    simp only [renderTokens, List.forall_mem_cons]
    exact ⟨rfl, hreg rd, hreg rs, plainToken_showNat _, List.forall_mem_nil _⟩
  | j off => exact List.forall_mem_cons.2 ⟨rfl, List.forall_mem_singleton.2 (plainToken_showInt off)⟩
  | empty | input | print | exit => exact List.forall_mem_singleton.2 rfl

theorem renderTokens_ne_nil (i : Instr) : renderTokens i ≠ [] := by
  cases i <;> exact List.cons_ne_nil _ _

/-- Characters that are no whitespace make one token. -/
theorem splitTokens_token {cur t : List Char} (h : ∀ c ∈ t, isBlank c = false) (hne : cur ++ t ≠ []) :
    splitTokens cur t = [cur ++ t] := by
  induction t generalizing cur with
  | nil =>
    rw [List.append_nil] at hne ⊢
    rw [splitTokens, if_neg hne]
  | cons c cs ih =>
    obtain ⟨hc, hcs⟩ := List.forall_mem_cons.1 h
    rw [splitTokens, hc, if_neg Bool.false_ne_true, ih hcs (by simp), List.append_assoc]
    rfl

theorem splitTokens_plainToken {t : List Char} (h : plainToken t = true) : splitTokens [] t = [t] := by
  obtain ⟨hne, hall⟩ := (plainToken_iff t).1 h
  exact splitTokens_token (fun c hc => ((plainChar_iff c).1 (hall c hc)).1) hne

theorem lineFeed_notMem_plainToken {t : List Char} (h : plainToken t = true) : lineFeed ∉ t := fun hmem =>
  ((plainChar_iff lineFeed).1 (((plainToken_iff t).1 h).2 lineFeed hmem)).2.1 rfl

/-- No plain token begins a comment. -/
theorem startsComment_plainToken {t : List Char} (h : plainToken t = true) :
    startsComment AsmConfig.default t = false := by
  unfold startsComment
  split
  · rename_i a b rest
    obtain ⟨-, -, ha⟩ := (plainChar_iff a).1 (((plainToken_iff _).1 h).2 a List.mem_cons_self)
    simp [AsmConfig.default, ha]
  · rfl

/-- Plain tokens with a space between each two are split at the spaces. -/
theorem splitTokens_intercalate {ts : List (List Char)} (h : ∀ t ∈ ts, plainToken t = true) :
    splitTokens [] (List.intercalate [' '] ts) = ts := by
  induction ts with
  | nil => rfl
  | cons t ts ih =>
    obtain ⟨ht, hts⟩ := List.forall_mem_cons.1 h
    cases ts with
    | nil => rw [List.intercalate_singleton, splitTokens_plainToken ht]
    | cons u us =>
      rw [List.intercalate_cons_cons, List.append_assoc, List.singleton_append,
        splitTokens_append_blank t _ [] (show isBlank ' ' = true from rfl), splitTokens_plainToken ht, ih hts]
      rfl

/-- Plain tokens with spaces between them are one line. -/
theorem lineFeed_notMem_intercalate {ts : List (List Char)} (h : ∀ t ∈ ts, plainToken t = true) :
    lineFeed ∉ List.intercalate [' '] ts := by
  induction ts with
  | nil => exact List.not_mem_nil
  | cons t ts ih =>
    obtain ⟨ht, hts⟩ := List.forall_mem_cons.1 h
    cases ts with
    | nil => simpa using lineFeed_notMem_plainToken ht
    | cons u us =>
      rw [List.intercalate_cons_cons]
      simpa [lineFeed_notMem_plainToken ht, ih hts] using (by decide : lineFeed ≠ ' ')

theorem dropComment_plain {ts : List (List Char)} (h : ∀ t ∈ ts, plainToken t = true) :
    dropComment AsmConfig.default ts = ts := by
  induction ts with
  | nil => rfl
  | cons t ts ih =>
    obtain ⟨ht, hts⟩ := List.forall_mem_cons.1 h
    simp [dropComment, startsComment_plainToken ht, ih hts]

theorem splitTokens_render (i : Instr) : splitTokens [] (render i) = renderTokens i := by
  rw [render_eq_intercalate, splitTokens_intercalate (renderTokens_plain i)]

/-- The text of a well-formed instruction is a line that becomes the instruction. -/
theorem assembleLine_render {i : Instr} (h : i.wf = true) : assembleLine AsmConfig.default (render i) = .ok i := by
  have hload : loadLine AsmConfig.default (render i) = renderTokens i := by
    rw [loadLine, splitTokens_render, dropComment_plain (renderTokens_plain i)]
    cases i <;> rfl
  rw [assembleLine, hload, checkTokens_renderTokens h]

/-- The text of an instruction is one line. -/
theorem splitLines_render (i : Instr) : splitLines (render i) = [render i] := by
  refine splitLines_of_lineFeed_notMem (fun hnil => renderTokens_ne_nil i ?_) ?_
  · rw [← splitTokens_render, hnil]
    rfl
  · rw [render_eq_intercalate]
    exact lineFeed_notMem_intercalate (renderTokens_plain i)

/-- The text of a well-formed instruction assembles to its word. -/
theorem assemble_render {i : Instr} (h : i.wf = true) :
    assemble AsmConfig.default (render i) = .words [encode i] := by
  simp only [assemble, splitLines_render, assembleLines, assembleLine_render h]

theorem disassemble_legal {w : Word8} {i : Instr} (h : decode w = .instr i) : disassemble w = some (render i) := by
  simp only [disassemble, h]

theorem disassemble_illegal {w : Word8} {why : IllegalWord} (h : decode w = .illegal why) : disassemble w = none := by
  simp only [disassemble, h]

/-- Settles O55: a legal word's text is its instruction's, which assembles to the instruction's word. -/
theorem assembleInvertsDisassemble : Obligations.AssembleInvertsDisassemble := by
  refine ⟨fun w text h => ?_, fun w => ?_⟩
  · cases hd : decode w with
    | instr i =>
      obtain rfl : render i = text := Option.some.inj ((disassemble_legal hd).symm.trans h)
      rw [assemble_render (decode_wf hd), encode_of_decode hd]
    | illegal why => cases (disassemble_illegal hd).symm.trans h
  · cases hd : decode w with
    | instr i => simp [disassemble_legal hd]
    | illegal why => simp [disassemble_illegal hd]

end Sys2Proof.Machine

/-! The executor: what decides a step (the bounds check, the decoder, the decoded instruction), what it leaves alone,
what it sees of the host, and that an assembled program has no illegal word to execute (40_executor.md R89 to R100). -/

namespace Sys2Proof.Machine

/-! ### The step, case by case -/

/-- Settles O4. -/
theorem stepRunsDecodedInstr : Obligations.StepRunsDecodedInstr :=
  fun _ _ _ hf hd => ⟨decode_wf hd, currentInstr_of_word hf.fetch_eq hd, step_executed hf hd⟩

/-- Settles O5: `N = 0` puts index 0 out of bounds. -/
theorem pcOutOfRangeFaults : Obligations.PcOutOfRangeFaults := by
  constructor
  · intro s hrst hrun ho
    exact ⟨_, step_outOfRange hrst hrun ho, faultEntered_enterFault .pcOutOfRange s, _, rfl, rfl⟩
  · intro s hrst hrun hpc hlen
    exact ⟨_, step_outOfRange hrst hrun (.inr (by omega)), rfl, rfl, hpc⟩

/-- A step answers where the image is loaded: an index in bounds that was never written is its only stop. -/
theorem step_answers {s : State} (h : s.rst = false → imageLoaded s = true) : ∃ t, step s = .next t := by
  cases hrst : s.rst with
  | true => exact ⟨_, step_in_reset hrst⟩
  | false =>
    by_cases hrun : s.run = .running
    · rcases fetch_cases s with ⟨-, ho⟩ | ⟨hlow, hhigh, ⟨hnone, -⟩ | ⟨w, hw, -⟩⟩
      · exact ⟨_, step_outOfRange hrst hrun ho⟩
      · have hsome := (imageLoaded_iff s).1 (h hrst) s.pc.toNat (by omega)
        rw [hnone] at hsome
        cases hsome
      · have hf : Fetches s w := ⟨hrst, hrun, hlow, hhigh, hw⟩
        cases hd : decode w with
        | illegal why => exact ⟨_, step_illegal hf hd⟩
        | instr i =>
          rw [step_executed hf hd]
          exact exec_answers i s
    · exact ⟨_, step_terminal hrst hrun⟩

/-- Settles O15: of the invariant only the loaded image is needed. -/
theorem invStepsNeverStop : Obligations.InvStepsNeverStop :=
  fun _ h => step_answers h.loaded

/-! ### Halting -/

/-- Of all instructions only `exit` halts a core that was not halted (43_system_io.md R126). -/
theorem ExecEffect.eq_halt_of_halted {i : Instr} {s t : State} (h : ExecEffect s i t) (hs : s.run ≠ .halted)
    (ht : t.run = .halted) : i = .exit ∧ t = halt s := by
  cases h with
  | exit => exact ⟨rfl, rfl⟩
  | overflow => cases ht
  | _ => exact absurd (by simpa using ht) hs

/-- Settles O10, by the cases of a step: a reset edge leaves the core RUNNING, and a fault FAULTED. -/
theorem onlyExitHalts : Obligations.OnlyExitHalts := by
  intro s t hrun hstep ht
  cases step_effect hstep with
  | reset => cases ht
  | held _ hne => exact absurd hrun hne
  | outOfRange => cases ht
  | illegal => cases ht
  | executed hf hd he =>
    obtain ⟨rfl, rfl⟩ := (exec_effect he).eq_halt_of_halted (by simp [hrun]) ht
    exact ⟨hf.rst, currentInstr_of_word hf.fetch_eq hd, rfl⟩

/-! ### One register and one transfer -/

/-- An instruction moves neither channel, consumes one offer, or prints the accumulator (20_memory.md R49). -/
theorem ExecEffect.transfer_cases {i : Instr} {s t : State} (h : ExecEffect s i t) :
    (t.inOffers = s.inOffers ∧ t.outLog = s.outLog) ∨
    ((∃ w, s.inOffers = w :: t.inOffers) ∧ t.outLog = s.outLog) ∨
    (t.inOffers = s.inOffers ∧ t.outLog = s.outLog ++ [readReg s 1]) := by
  cases h with
  | inputDone ho => exact .inr (.inl ⟨⟨_, by simpa using ho⟩, by simp⟩)
  | printDone => exact .inr (.inr ⟨rfl, rfl⟩)
  | _ => exact .inl ⟨by simp, by simp⟩

/-- An instruction changes no register but one (40_executor.md R93). -/
theorem ExecEffect.one_register {i : Instr} {s t : State} (h : ExecEffect s i t) :
    ∃ r, ∀ r', r' ≠ r → readReg t r' = readReg s r' := by
  cases hw : writtenReg i with
  | none => exact ⟨0, fun r' _ => h.readReg_of_not_written (by simp [hw])⟩
  | some r => exact ⟨r, fun r' hr => h.readReg_of_not_written (by simpa [hw] using Ne.symm hr)⟩

/-- Settles O19: a held state and a fault entry change no register and move no channel. -/
theorem oneRegisterOneTransfer : Obligations.OneRegisterOneTransfer := by
  intro s t hrst hstep
  cases step_effect hstep with
  | reset h1 => simp [hrst] at h1
  | executed _ _ he => exact ⟨(exec_effect he).one_register, (exec_effect he).transfer_cases⟩
  | held | outOfRange | illegal => exact ⟨⟨0, fun _ _ => rfl⟩, .inl ⟨rfl, rfl⟩⟩

/-! ### What a step sees of the host

`rewire` changes the offers, `out_ready` and the wait bits, each by a function of its own. An instruction other than
`input` and `print` commutes with every rewiring; those two commute with the ones that leave their own channel alone. -/

/-- The same core with other offers, another `out_ready` and other wait bits. -/
def rewire (offers : List Nat → List Nat) (ready inW outW : Bool → Bool) (s : State) : State :=
  { s with
    inOffers := offers s.inOffers
    outReady := ready s.outReady
    inWait := inW s.inWait
    outWait := outW s.outWait }

/-- A state with both wait bits at 0. -/
def clearWaits (s : State) : State := { s with inWait := false, outWait := false }

section
variable (offers : List Nat → List Nat) (ready inW outW : Bool → Bool) {s : State}

theorem writeReg_rewire (r : RegIdx) (v : Int) :
    writeReg r v (rewire offers ready inW outW s) = rewire offers ready inW outW (writeReg r v s) := by
  fin_cases r <;> rfl

theorem writeResult_rewire (rd : RegIdx) (r : Option Int) :
    writeResult rd r (rewire offers ready inW outW s) =
      mapNext (rewire offers ready inW outW) (writeResult rd r s) := by
  cases r with
  | none => rfl
  | some v =>
    simp only [writeResult, writeReg_rewire]
    rfl

/-- An instruction that uses no channel commutes with every rewiring. -/
theorem exec_rewire {i : Instr} (hin : i ≠ .input) (hout : i ≠ .print) :
    exec i (rewire offers ready inW outW s) = mapNext (rewire offers ready inW outW) (exec i s) := by
  cases i with
  | add | sub | set => exact writeResult_rewire offers ready inW outW _ _
  | jeq | j | empty | exit => rfl
  | input => exact absurd rfl hin
  | print => exact absurd rfl hout

/-- A relation that the reset edge, the held state, the fault entry and the current instruction establish between what
they make of a state and of its rewiring holds between the two next states: the rest of a step sees no pin but `rst`. -/
theorem step_rewire {R : State → State → Prop} {t : State} (hheld : R s (rewire offers ready inW outW s))
    (hreset : R (coreReset s) (coreReset (rewire offers ready inW outW s)))
    (hfault : ∀ c, R (enterFault c s) (enterFault c (rewire offers ready inW outW s)))
    (hexec : ∀ i u, currentInstr s = some i → exec i s = .next u →
      ∃ u', exec i (rewire offers ready inW outW s) = .next u' ∧ R u u')
    (hstep : step s = .next t) : ∃ t', step (rewire offers ready inW outW s) = .next t' ∧ R t t' := by
  have hF : ∀ {w}, Fetches s w → Fetches (rewire offers ready inW outW s) w := fun hf =>
    hf.congr rfl rfl rfl rfl rfl
  cases step_effect hstep with
  | reset hrst => exact ⟨_, step_in_reset hrst, hreset⟩
  | held hrst hrun => exact ⟨_, step_terminal hrst hrun, hheld⟩
  | outOfRange hrst hrun ho => exact ⟨_, step_outOfRange hrst hrun ho, hfault _⟩
  | illegal hf hd => exact ⟨_, step_illegal (hF hf) hd, hfault _⟩
  | executed hf hd he =>
    rw [step_executed (hF hf) hd]
    exact hexec _ _ (currentInstr_of_word hf.fetch_eq hd) he

end

/-- Other offers, and all else as it is. -/
def withOffers (l : List Nat) : State → State := rewire (fun _ => l) id id id

/-- Another `out_ready`, and all else as it is. -/
def withOutReady (b : Bool) : State → State := rewire id (fun _ => b) id id

/-- Other wait bits, and all else as they are. -/
def withWaits (a b : Bool) : State → State := rewire id id (fun _ => a) (fun _ => b)

/-- Every instruction but `input` commutes with a change of the offers. -/
theorem exec_withOffers (l : List Nat) (s : State) {i : Instr} (hin : i ≠ .input) :
    exec i (withOffers l s) = mapNext (withOffers l) (exec i s) := by
  by_cases hout : i = .print
  · subst hout
    cases hr : s.outReady with
    | false =>
      rw [exec_print_wait hr, exec_print_wait (show (withOffers l s).outReady = false from hr)]
      rfl
    | true =>
      rw [exec_print_ready hr, exec_print_ready (show (withOffers l s).outReady = true from hr)]
      rfl
  · exact exec_rewire _ _ _ _ hin hout

/-- Every instruction but `print` commutes with a change of `out_ready`. -/
theorem exec_withOutReady (b : Bool) (s : State) {i : Instr} (hout : i ≠ .print) :
    exec i (withOutReady b s) = mapNext (withOutReady b) (exec i s) := by
  by_cases hin : i = .input
  · subst hin
    cases ho : s.inOffers with
    | nil =>
      rw [exec_input_wait ho, exec_input_wait (show (withOutReady b s).inOffers = [] from ho)]
      rfl
    | cons w rest =>
      rw [exec_input_offered ho, exec_input_offered (show (withOutReady b s).inOffers = w :: rest from ho)]
      rfl
  · exact exec_rewire _ _ _ _ hin hout

/-- Whatever the wait bits are before an instruction, it leaves the same state but for them. -/
theorem exec_withWaits (a b : Bool) {i : Instr} {s u : State} (h : exec i s = .next u) :
    ∃ u', exec i (withWaits a b s) = .next u' ∧ clearWaits u' = clearWaits u := by
  by_cases hin : i = .input
  · subst hin
    rcases execInput_cases h with ⟨ho, rfl⟩ | ⟨w, rest, ho, rfl⟩
    · exact ⟨_, exec_input_wait ho, rfl⟩
    · exact ⟨_, exec_input_offered ho, rfl⟩
  · by_cases hout : i = .print
    · subst hout
      rcases execPrint_cases h with ⟨hr, rfl⟩ | ⟨hr, rfl⟩
      · exact ⟨_, exec_print_wait hr, rfl⟩
      · exact ⟨_, exec_print_ready hr, rfl⟩
    · exact ⟨withWaits a b u, by rw [withWaits, exec_rewire _ _ _ _ hin hout, h]; rfl, rfl⟩

/-- A step commutes with other offers and another `out_ready` where the current instruction does. -/
theorem step_rewire_of_exec_rewire {offers : List Nat → List Nat} {ready : Bool → Bool} {s t : State}
    (hexec : ∀ i, currentInstr s = some i →
      exec i (rewire offers ready id id s) = mapNext (rewire offers ready id id) (exec i s))
    (hstep : step s = .next t) : step (rewire offers ready id id s) = .next (rewire offers ready id id t) := by
  obtain ⟨t', ht', rfl⟩ := step_rewire (R := fun u u' => u' = rewire offers ready id id u) offers ready id id
    rfl rfl (fun _ => rfl) (fun i u hi hu => ⟨_, (hexec i hi).trans (congrArg (mapNext _) hu), rfl⟩) hstep
  exact ht'

/-- Settles O21: each change is a rewiring, which the current instruction does not see. -/
theorem stepSeesHostOnlyThroughChannels : Obligations.StepSeesHostOnlyThroughChannels := by
  refine ⟨fun s t l hcur hstep => ?_, fun s t b hcur hstep => ?_, fun s t a b hstep => ?_⟩
  · have hin : ∀ i, currentInstr s = some i → i ≠ .input := fun i hi heq => hcur (heq ▸ hi)
    exact step_rewire_of_exec_rewire (fun i hi => exec_withOffers l s (hin i hi)) hstep
  · have hout : ∀ i, currentInstr s = some i → i ≠ .print := fun i hi heq => hcur (heq ▸ hi)
    exact step_rewire_of_exec_rewire (fun i hi => exec_withOutReady b s (hout i hi)) hstep
  · exact step_rewire (R := fun u u' => clearWaits u' = clearWaits u) _ _ _ _ rfl rfl (fun _ => rfl)
      (fun _ _ _ hu => exec_withWaits a b hu) hstep

/-! ### The assembler accepts well-formed instructions alone (30_encoding.md R82) -/

theorem destOk_of_parseDest {t : List Char} {rd : RegIdx} (h : parseDest t = .ok rd) : destOk rd = true := by
  unfold parseDest at h
  split at h
  · split at h
    · rename_i hok
      exact Except.ok.inj h ▸ hok
    · cases h
  · cases h

theorem offsetOk_of_parseOffset {t : List Char} {off : Int} (h : parseOffset t = .ok off) : offsetOk off = true := by
  unfold parseOffset at h
  split at h
  · cases h
  · split at h
    · rename_i hok
      exact Except.ok.inj h ▸ hok
    · cases h

/-- A format R line is its mnemonic's instruction with a destination in range. -/
theorem checkR_ok {mk : RegIdx → RegIdx → Imm1 → Instr} {ts : List (List Char)} {i : Instr}
    (h : checkR mk ts = .ok i) : ∃ rd rs imm, i = mk rd rs imm ∧ destOk rd = true := by
  unfold checkR at h
  split at h
  · split at h
    · rename_i rd rs imm hrd _ _
      exact ⟨rd, rs, imm, (LineResult.ok.inj h).symm, destOk_of_parseDest hrd⟩
    · cases h
  · cases h

theorem checkJ_ok {ts : List (List Char)} {i : Instr} (h : checkJ ts = .ok i) :
    ∃ off, i = .j off ∧ offsetOk off = true := by
  unfold checkJ at h
  split at h
  · split at h
    · rename_i off hoff
      exact ⟨off, (LineResult.ok.inj h).symm, offsetOk_of_parseOffset hoff⟩
    · cases h
  · cases h

theorem checkS_ok {i k : Instr} {ts : List (List Char)} (h : checkS k ts = .ok i) : i = k := by
  unfold checkS at h
  split at h
  · exact (LineResult.ok.inj h).symm
  · cases h

/-- A line of any mnemonic that is accepted is a well-formed instruction. -/
theorem wf_of_checkTokens {ts : List (List Char)} {i : Instr} (h : checkTokens ts = .ok i) : i.wf = true := by
  unfold checkTokens at h
  split at h
  · cases h
  · split_ifs at h
    iterate 4
      · obtain ⟨rd, rs, imm, rfl, hrd⟩ := checkR_ok h
        exact hrd
    · obtain ⟨off, rfl, hoff⟩ := checkJ_ok h
      exact hoff
    iterate 4
      · obtain rfl := checkS_ok h
        rfl

/-- Every word that the assembler gives is legal (30_encoding.md R71, R73). -/
theorem assembled_word_legal {cfg : AsmConfig} {text : List Char} {ws : List Word8} {k : Nat} {w : Word8}
    (h : assemble cfg text = .words ws) (hk : ws[k]? = some w) : ∃ i, decode w = .instr i := by
  obtain ⟨hlen, hword⟩ := word_of_line h
  obtain ⟨hlt, -⟩ := List.getElem?_eq_some_iff.1 hk
  obtain ⟨i, hi, hw⟩ := hword k _ (List.getElem?_eq_getElem (hlen ▸ hlt))
  obtain rfl : encode i = w := Option.some.inj (hw.symm.trans hk)
  exact ⟨i, decode_encode (wf_of_checkTokens hi)⟩

/-! ### What a load leaves in the memory (70_reset_and_hazards.md R151) -/

/-- A sequence of host actions that answers a next state began with an action that did. -/
theorem hostRun_cons_cases {a : HostAction} {as : List HostAction} {s u : State}
    (h : hostRun (a :: as) s = .next u) : ∃ t, hostAct a s = .next t ∧ hostRun as t = .next u := by
  cases ha : hostAct a s with
  | next t => exact ⟨t, rfl, (hostRun_cons ha).symm.trans h⟩
  | fault r =>
    simp only [hostRun, ha] at h
    cases h
  | refused r =>
    simp only [hostRun, ha] at h
    cases h

theorem hostRun_append_cases {as bs : List HostAction} {s u : State} (h : hostRun (as ++ bs) s = .next u) :
    ∃ t, hostRun as s = .next t ∧ hostRun bs t = .next u := by
  induction as generalizing s with
  | nil => exact ⟨s, rfl, h⟩
  | cons a as ih =>
    obtain ⟨v, hv, hrest⟩ := hostRun_cons_cases h
    obtain ⟨t, ht, hu⟩ := ih hrest
    exact ⟨t, (hostRun_cons hv).trans ht, hu⟩

/-- The writes of an image put its words at their indices, and leave the words below them. -/
theorem read_of_imageWrites {k : Nat} {ws : List Word8} {s t : State} (h : hostRun (imageWrites k ws) s = .next t) :
    (∀ a, a < k → Memory.read t.imem a = Memory.read s.imem a) ∧
    ∀ j, j < ws.length → Memory.read t.imem (k + j) = ws[j]? := by
  induction ws generalizing k s with
  | nil =>
    obtain rfl : s = t := Host.Outcome.next.inj h
    exact ⟨fun _ _ => rfl, fun _ hj => absurd hj (Nat.not_lt_zero _)⟩
  | cons w ws ih =>
    obtain ⟨u, hu, hrest⟩ := hostRun_cons_cases h
    cases hostAct_effect hu
    obtain ⟨hbelow, hat⟩ := ih hrest
    refine ⟨fun a ha => ?_, fun j hj => ?_⟩
    · rw [hbelow a (by omega), Memory.read_write, if_neg (by omega)]
    · cases j with
      | zero => rw [Nat.add_zero, hbelow k (by omega), Memory.read_write, if_pos rfl, List.getElem?_cons_zero]
      | succ j =>
        rw [← Nat.succ_add_eq_add_succ, List.getElem?_cons_succ]
        exact hat j (by simpa using hj)

/-- A load that is not refused ends in a reset core whose words below `N` are the program's. -/
theorem state_of_load {ws : List Word8} {s t : State} (h : hostRun (loadActions ws) s = .next t) :
    t.cause = .none ∧ t.progLen = ws.length ∧ ∀ a, a < ws.length → Memory.read t.imem a = ws[a]? := by
  obtain ⟨s₁, -, h₁⟩ := hostRun_cons_cases h
  obtain ⟨s₂, hwrites, h₂⟩ := hostRun_append_cases h₁
  obtain ⟨s₃, hlen, h₃⟩ := hostRun_cons_cases h₂
  obtain ⟨s₄, hrelease, h₄⟩ := hostRun_cons_cases h₃
  obtain rfl : s₄ = t := Host.Outcome.next.inj h₄
  have hread := (read_of_imageWrites hwrites).2
  simp only [Nat.zero_add] at hread
  cases hostAct_effect hlen with
  | setProgLen _ hrst =>
    cases hostAct_effect hrelease with
    | releaseReset => exact ⟨rfl, rfl, hread⟩
    | released hnot => simp [hrst] at hnot

/-! ### An assembled program has no illegal word -/

/-- No illegal word stands below `N`, and none was executed. -/
structure LegalProgram (s : State) : Prop where
  legal : ∀ a w, a < s.progLen → Memory.read s.imem a = some w → ∃ i, decode w = .instr i
  cause : s.cause ≠ .illegalInstruction

/-- An instruction enters no fault but ARITH_OVERFLOW. -/
theorem ExecEffect.cause_cases {i : Instr} {s t : State} (h : ExecEffect s i t) :
    t.cause = s.cause ∨ t.cause = .arithOverflow := by
  rcases h.status_cases with hsame | ⟨-, hc⟩ | ⟨-, hc⟩
  · exact .inl hsame.cause
  · exact .inr hc
  · exact .inl hc

/-- Only the execution of an illegal word raises ILLEGAL_INSTRUCTION (60_exceptions.md R133). -/
theorem StepEffect.cause_ne_illegal {s t : State} (h : StepEffect s t) (hs : LegalProgram s) :
    t.cause ≠ .illegalInstruction := by
  cases h with
  | reset | outOfRange => simp
  | held => exact hs.cause
  | illegal hf hd =>
    have hlow := hf.low
    have hhigh := hf.high
    obtain ⟨i, hi⟩ := hs.legal s.pc.toNat _ (by omega) hf.word
    rw [hi] at hd
    cases hd
  | executed _ _ he =>
    rcases (exec_effect he).cause_cases with hc | hc
    · exact hc ▸ hs.cause
    · simp [hc]

theorem LegalProgram.of_step {s t : State} (h : LegalProgram s) (hstep : step s = .next t) : LegalProgram t := by
  obtain ⟨himem, hlen, -⟩ := stepKeepsHostPart s t hstep
  exact ⟨by rw [himem, hlen]; exact h.legal, (step_effect hstep).cause_ne_illegal h⟩

/-- Booted text that the assembler accepts is a legal program. -/
theorem legalProgram_of_boot {cfg : AsmConfig} {text : List Char} {ws : List Word8} {s t : State}
    (h : assemble cfg text = .words ws) (hboot : bootText cfg text s = .next t) : LegalProgram t := by
  simp only [bootText, h] at hboot
  obtain ⟨hcause, hlen, hread⟩ := state_of_load hboot
  refine ⟨fun a w ha hw => ?_, by simp [hcause]⟩
  rw [hread a (hlen ▸ ha)] at hw
  exact assembled_word_legal h hw

/-- Settles O56: a legal program is kept by every step. -/
theorem assembledNeverIllegal : Obligations.AssembledNeverIllegal :=
  fun _ _ _ _ _ _ k hasm hboot hrun =>
    (run_keeps (fun _ _ => LegalProgram.of_step) k _ _ (legalProgram_of_boot hasm hboot) hrun).cause

end Sys2Proof.Machine

/-! Arithmetic: the range checks as facts about numbers, the one shape that `add`, `sub` and `set` share, and what each
of the three computes (41_arithmetic.md R101 to R110). -/

namespace Sys2Proof.Machine

/-! ### The range checks as facts about numbers (41_arithmetic.md R107) -/

theorem maxInt_eq (n : Nat) : maxInt n = -minInt n - 1 := by
  rw [maxInt, minInt, neg_neg]

/-- A narrower build's range is part of a wider one's. -/
theorem inRange_of_width_le {b : Build} {n : Nat} {v : Int} (hn : n ≤ b.xlen) (hlo : minInt n ≤ v)
    (hhi : v ≤ maxInt n) : inRange b v = true := by
  have hpow : 2 ^ (n - 1) ≤ 2 ^ (b.xlen - 1) := Nat.pow_le_pow_right (by decide) (by omega)
  rw [minInt] at hlo
  rw [maxInt] at hhi
  rw [inRange_iff, minInt, maxInt]
  omega

theorem eq_one_iff_immValue (imm : Imm1) : imm = 1 ↔ immValue imm = 1 := by
  revert imm
  decide

/-- The immediate fits every build, and so does its negative. -/
theorem inRange_immValue {b : Build} (hb : 2 ≤ b.xlen) (imm : Imm1) :
    inRange b (immValue imm) = true ∧ inRange b (-immValue imm) = true := by
  obtain ⟨-, hi⟩ | ⟨-, hi⟩ := immValue_cases imm <;> rw [hi] <;>
    exact ⟨inRange_of_width_le hb (by decide) (by decide), inRange_of_width_le hb (by decide) (by decide)⟩

/-- A sum of two values in range leaves the range only where both have the sign of the end it crosses. -/
theorem add_overflow_iff {b : Build} {x y : Int} (hx : inRange b x = true) (hy : inRange b y = true) :
    inRange b (x + y) = false ↔
      (0 < x ∧ 0 < y ∧ maxInt b.xlen < x + y) ∨ (x < 0 ∧ y < 0 ∧ x + y < minInt b.xlen) := by
  rw [inRange_iff] at hx hy
  rw [inRange_false_iff]
  omega

/-- A difference of two values in range leaves the range only where their signs differ; 0 counts as positive on the
left alone, since the range reaches one further below 0 than above it. -/
theorem sub_overflow_iff {b : Build} {x y : Int} (hx : inRange b x = true) (hy : inRange b y = true) :
    inRange b (x - y) = false ↔
      (0 ≤ x ∧ y < 0 ∧ maxInt b.xlen < x - y) ∨ (x < 0 ∧ 0 < y ∧ x - y < minInt b.xlen) := by
  rw [inRange_iff] at hx hy
  rw [inRange_false_iff]
  have := maxInt_eq b.xlen
  omega

/-- Taking MIN away from a value of 0 or more gives MAX + 1 or more. -/
theorem sub_minInt_overflow {b : Build} {x y : Int} (hx : 0 ≤ x) (hy : y = minInt b.xlen) :
    inRange b (x - y) = false := by
  rw [inRange_false_iff]
  have := maxInt_eq b.xlen
  omega

/-- Adding the immediate to a value in range overflows at MAX plus 1 alone. -/
theorem add_imm_overflow_iff {b : Build} {v : Int} (hv : inRange b v = true) (imm : Imm1) :
    inRange b (v + immValue imm) = false ↔ v = maxInt b.xlen ∧ imm = 1 := by
  rw [inRange_iff] at hv
  rw [inRange_false_iff, eq_one_iff_immValue]
  obtain ⟨-, hi⟩ | ⟨-, hi⟩ := immValue_cases imm <;> omega

/-- Subtracting the immediate from a value in range overflows at MIN minus 1 alone. -/
theorem sub_imm_overflow_iff {b : Build} {v : Int} (hv : inRange b v = true) (imm : Imm1) :
    inRange b (v - immValue imm) = false ↔ v = minInt b.xlen ∧ imm = 1 := by
  rw [inRange_iff] at hv
  rw [inRange_false_iff, eq_one_iff_immValue]
  obtain ⟨-, hi⟩ | ⟨-, hi⟩ := immValue_cases imm <;> omega

theorem overflows_add_eq_false {s : State} {rd rs : RegIdx} {imm : Imm1} :
    overflows s (.add rd rs imm) = false ↔
      inRange s.build (readReg s rd + readReg s rs) = true ∧
      inRange s.build (readReg s rd + readReg s rs + immValue imm) = true := by
  simp [overflows]

theorem overflows_sub_eq_false {s : State} {rd rs : RegIdx} {imm : Imm1} :
    overflows s (.sub rd rs imm) = false ↔
      inRange s.build (readReg s rd - readReg s rs) = true ∧
      inRange s.build (readReg s rd - readReg s rs - immValue imm) = true := by
  simp [overflows]

theorem overflows_set_eq_false {s : State} {rd rs : RegIdx} {imm : Imm1} :
    overflows s (.set rd rs imm) = false ↔ inRange s.build (readReg s rs + immValue imm) = true := by
  simp [overflows]

/-! ### What the three instructions share -/

/-- `i` is an arithmetic instruction with destination `rd`, and `v` is its exact result in `s`
(41_arithmetic.md R110). -/
inductive Computes (s : State) : Instr → RegIdx → Int → Prop
  | add (rd rs : RegIdx) (imm : Imm1) :
      Computes s (.add rd rs imm) rd (readReg s rd + readReg s rs + immValue imm)
  | sub (rd rs : RegIdx) (imm : Imm1) :
      Computes s (.sub rd rs imm) rd (readReg s rd - readReg s rs - immValue imm)
  | set (rd rs : RegIdx) (imm : Imm1) : Computes s (.set rd rs imm) rd (readReg s rs + immValue imm)

section
variable {s : State} {i : Instr} {rd : RegIdx} {v : Int}

theorem Computes.exec_overflow (h : Computes s i rd v) (hov : overflows s i = true) :
    exec i s = .next (enterFault .arithOverflow s) := by
  cases h with
  | add => exact exec_add_overflow hov
  | sub => exact exec_sub_overflow hov
  | set => exact exec_set_overflow hov

theorem Computes.exec_result (h : Computes s i rd v) (hno : overflows s i = false) :
    exec i s = .next (advance 0 (writeReg rd v s)) := by
  cases h with
  | add =>
    obtain ⟨h1, h2⟩ := overflows_add_eq_false.1 hno
    exact exec_add_inRange h1 h2
  | sub =>
    obtain ⟨h1, h2⟩ := overflows_sub_eq_false.1 hno
    exact exec_sub_inRange h1 h2
  | set => exact exec_set_inRange (overflows_set_eq_false.1 hno)

theorem Computes.faults (h : Computes s i rd v) (hov : overflows s i = true) :
    ∃ t, exec i s = .next t ∧ FaultEntered .arithOverflow s t :=
  ⟨_, h.exec_overflow hov, faultEntered_enterFault _ s⟩

/-- Where the checks pass, the destination reads the exact result, the PC moves on, and nothing else is written. -/
theorem Computes.completes (h : Computes s i rd v) (hrd : rd ≠ 0) (hno : overflows s i = false) :
    ∃ t, exec i s = .next t ∧ readReg t rd = v ∧ (∀ r, r ≠ rd → readReg t r = readReg s r) ∧
      t.pc = s.pc + 1 ∧ RunSame s t := by
  refine ⟨_, h.exec_result hno, ?_, fun r hr => ?_, by simp, ⟨by simp, by simp⟩⟩
  · rw [readReg_advance, readReg_writeReg, if_pos ⟨rfl, hrd⟩]
  · rw [readReg_advance, readReg_writeReg, if_neg fun hc => hr hc.1]

/-- `completes` for a value written in another form, as the corner cases state it. -/
theorem Computes.writes {u : Int} (h : Computes s i rd v) (hrd : rd ≠ 0) (hno : overflows s i = false) (hv : v = u) :
    ∃ t, exec i s = .next t ∧ readReg t rd = u ∧ RunSame s t := by
  obtain ⟨t, he, hdest, -, -, hrun⟩ := h.completes hrd hno
  exact ⟨t, he, hdest.trans hv, hrun⟩

/-- A core that is not FAULTED stays in its run state exactly where the checks pass. -/
theorem Computes.run_eq_iff {t : State} (h : Computes s i rd v) (hs : s.run ≠ .faulted) (he : exec i s = .next t) :
    t.run = s.run ↔ overflows s i = false := by
  cases hov : overflows s i with
  | true =>
    obtain rfl := Host.Outcome.next.inj ((h.exec_overflow hov).symm.trans he)
    simpa using hs.symm
  | false =>
    obtain rfl := Host.Outcome.next.inj ((h.exec_result hov).symm.trans he)
    simp

/-- Completion without a fault is the passing of the checks. -/
theorem Computes.exists_running_iff (h : Computes s i rd v) (hs : s.run = .running) :
    (∃ t, exec i s = .next t ∧ t.run = .running) ↔ overflows s i = false := by
  have hne : s.run ≠ .faulted := by simp [hs]
  constructor
  · rintro ⟨t, he, ht⟩
    exact (h.run_eq_iff hne he).1 (ht.trans hs.symm)
  · intro hno
    exact ⟨_, h.exec_result hno, ((h.run_eq_iff hne (h.exec_result hno)).2 hno).trans hs⟩

/-- What is written without a fault is the exact result. -/
theorem Computes.readReg_of_running {t : State} (h : Computes s i rd v) (hrd : rd ≠ 0) (hs : s.run = .running)
    (ht : t.run = .running) (he : exec i s = .next t) : readReg t rd = v := by
  obtain ⟨u, hu, hdest, -⟩ := h.completes hrd ((h.exists_running_iff hs).1 ⟨t, he, ht⟩)
  obtain rfl := Host.Outcome.next.inj (hu.symm.trans he)
  exact hdest

end

/-! ### The effects (41_arithmetic.md R101, R103, R105) -/

/-- Settles O25. -/
theorem addEffect : Obligations.AddEffect := by
  refine ⟨fun s rd rs imm hrd => ⟨opField_encodeR _ rd rs imm, fun h1 => ?_, fun h1 h2 => ?_, fun h1 h2 => ?_⟩,
    by decide, fun s hx ha hb => ?_⟩
  · exact (Computes.add rd rs imm).faults (by simp [overflows, h1])
  · exact (Computes.add rd rs imm).faults (by simp [overflows, h2])
  · exact (Computes.add rd rs imm).completes hrd (overflows_add_eq_false.2 ⟨h1, h2⟩)
  · have hno : overflows s (.add 1 2 1) = false := by
      rw [overflows_add_eq_false, ha, hb]
      exact ⟨inRange_of_width_le hx (by decide) (by decide), inRange_of_width_le hx (by decide) (by decide)⟩
    obtain ⟨t, he, hdest, -, hpc, -⟩ := (Computes.add 1 2 1).completes (by decide) hno
    rw [ha, hb] at hdest
    exact ⟨t, he, hdest, hpc⟩

/-- Settles O26. -/
theorem subEffect : Obligations.SubEffect := by
  refine ⟨fun s rd rs imm hrd => ⟨opField_encodeR _ rd rs imm, fun h1 => ?_, fun h1 h2 => ?_, fun h1 h2 => ?_⟩,
    by decide, fun s hx ha => ?_⟩
  · exact (Computes.sub rd rs imm).faults (by simp [overflows, h1])
  · exact (Computes.sub rd rs imm).faults (by simp [overflows, h2])
  · exact (Computes.sub rd rs imm).completes hrd (overflows_sub_eq_false.2 ⟨h1, h2⟩)
  · have hno : overflows s (.sub 3 0 1) = false := by
      rw [overflows_sub_eq_false, readReg_zero, ha]
      exact ⟨inRange_of_width_le hx (by decide) (by decide), inRange_of_width_le hx (by decide) (by decide)⟩
    obtain ⟨t, he, hdest, -, hpc, -⟩ := (Computes.sub 3 0 1).completes (by decide) hno
    rw [ha] at hdest
    exact ⟨t, he, hdest, hpc⟩

/-- Settles O27. -/
theorem setEffect : Obligations.SetEffect := by
  refine ⟨fun s rd rs imm hrd => ⟨opField_encodeR _ rd rs imm, fun h => ?_, fun h => add_imm_overflow_iff h imm,
    fun h => ?_⟩, by decide, fun s hx => ?_⟩
  · exact (Computes.set rd rs imm).faults (by simp [overflows, h])
  · exact (Computes.set rd rs imm).completes hrd (overflows_set_eq_false.2 h)
  · have hno : overflows s (.set 1 0 1) = false := by
      rw [overflows_set_eq_false, readReg_zero]
      exact inRange_of_width_le hx (by decide) (by decide)
    obtain ⟨t, he, hdest, -, hpc, -⟩ := (Computes.set 1 0 1).completes (by decide) hno
    exact ⟨t, he, hdest, hpc⟩

/-! ### The corner cases (41_arithmetic.md R102, R104, R106) -/

/-- Settles O28: in the last case MIN - 1 is out of range, although the total is MIN again. -/
theorem addCornerCases : Obligations.AddCornerCases := by
  intro s rd rs imm _ hrd hregs
  refine ⟨fun h => ?_, fun h1 h2 => ?_, fun h => ?_, add_overflow_iff (hregs rd) (hregs rs),
    fun h => add_imm_overflow_iff h imm, fun ha hb => ?_⟩
  · obtain ⟨t, he, hdest, -⟩ := (Computes.add rd 0 imm).writes (u := readReg s rd + immValue imm) hrd
      (overflows_add_eq_false.2 (by simpa using ⟨hregs rd, h⟩)) (by simp)
    exact ⟨t, he, hdest⟩
  · rw [two_mul] at h1 h2 ⊢
    obtain ⟨t, he, hdest, -⟩ := (Computes.add rd rd imm).completes hrd (overflows_add_eq_false.2 ⟨h1, h2⟩)
    exact ⟨t, he, hdest⟩
  · obtain ⟨t, he, hdest, -⟩ := (Computes.add rd rs 0).writes (u := readReg s rd + readReg s rs) hrd
      (overflows_add_eq_false.2 (by simpa [immValue] using h)) (by simp [immValue])
    exact ⟨t, he, hdest⟩
  · have hpartial : inRange s.build (readReg s rd + readReg s rs) = false := by
      rw [inRange_false_iff, ha, hb]
      exact .inl (by omega)
    refine ⟨?_, (Computes.add rd rs 1).faults (by simp [overflows, hpartial])⟩
    rw [hb, neg_add_cancel_right]
    exact hregs rd

/-- Settles O29: in the last case the partial difference is MAX + 1, although the total is MAX. -/
theorem subCornerCases : Obligations.SubCornerCases := by
  intro s rd rs imm hx hrd hregs
  have hmax := maxInt_eq s.build.xlen
  refine ⟨fun h => ?_, ?_, sub_overflow_iff (hregs rd) (hregs rs), fun hb ha => sub_minInt_overflow ha hb,
    fun h => sub_imm_overflow_iff h imm, fun ha hb => ⟨by omega, ?_⟩⟩
  · obtain ⟨t, he, hdest, -⟩ := (Computes.sub rd 0 imm).writes (u := readReg s rd - immValue imm) hrd
      (overflows_sub_eq_false.2 (by simpa using ⟨hregs rd, h⟩)) (by simp)
    exact ⟨t, he, hdest⟩
  · exact (Computes.sub rd rd imm).writes hrd
      (overflows_sub_eq_false.2 (by simpa using ⟨inRange_zero _, (inRange_immValue hx imm).2⟩)) (by simp)
  · exact (Computes.sub rd rs 1).faults (by simp [overflows, sub_minInt_overflow ha.ge hb])

/-- `set` reads its source alone: another register's old value makes no difference to what it leaves. -/
theorem exec_set_writeReg {s : State} {rd rs : RegIdx} {imm : Imm1} (v : Int) (hne : rs ≠ rd)
    (hno : overflows s (.set rd rs imm) = false) :
    exec (.set rd rs imm) (writeReg rd v s) = exec (.set rd rs imm) s := by
  have hrs : readReg (writeReg rd v s) rs = readReg s rs := by
    rw [readReg_writeReg, if_neg fun hc => hne hc.1]
  have hno' : overflows (writeReg rd v s) (.set rd rs imm) = false := by
    rw [overflows_set_eq_false, hrs, writeReg_build]
    exact overflows_set_eq_false.1 hno
  rw [(Computes.set rd rs imm).exec_result hno', (Computes.set rd rs imm).exec_result hno, hrs, writeReg_writeReg]

/-- Settles O30. -/
theorem setCornerCases : Obligations.SetCornerCases := by
  intro s rd rs imm hx hrd hregs
  have hcopy (r : RegIdx) : overflows s (.set rd r 0) = false :=
    overflows_set_eq_false.2 (by simpa [immValue] using hregs r)
  refine ⟨?_, ?_, fun h => ?_, ?_, fun v t hne he ht hs => ?_⟩
  · exact (Computes.set rd 0 imm).writes hrd
      (overflows_set_eq_false.2 (by simpa using (inRange_immValue hx imm).1)) (by simp)
  · exact (Computes.set rd rs 0).writes hrd (hcopy rs) (by simp [immValue])
  · obtain ⟨t, he, hdest, -⟩ := (Computes.set rd rd imm).completes hrd (overflows_set_eq_false.2 h)
    exact ⟨t, he, hdest⟩
  · have hv : readReg s rd + immValue 0 = readReg s rd := by simp [immValue]
    rw [(Computes.set rd rd 0).exec_result (hcopy rd), hv, writeReg_readReg, advance, add_zero]
  · rw [exec_set_writeReg v hne (((Computes.set rd rs imm).run_eq_iff hs he).1 ht), he]

/-! ### Completion (41_arithmetic.md R110) -/

/-- Settles O31. -/
theorem arithCompletesExactly : Obligations.ArithCompletesExactly := by
  intro s rd rs imm hs hrd
  have hadd := Computes.add (s := s) rd rs imm
  have hsub := Computes.sub (s := s) rd rs imm
  have hset := Computes.set (s := s) rd rs imm
  exact ⟨(hadd.exists_running_iff hs).trans overflows_add_eq_false,
    (hsub.exists_running_iff hs).trans overflows_sub_eq_false,
    (hset.exists_running_iff hs).trans overflows_set_eq_false,
    fun _ ht => ⟨hadd.readReg_of_running hrd hs ht, hsub.readReg_of_running hrd hs ht,
      hset.readReg_of_running hrd hs ht⟩⟩

end Sys2Proof.Machine

/-! Control transfer: `jeq` and `j` each advance the PC by their own effect and one more, and the bounds check belongs to
the next step (42_control_transfer.md R111 to R120). -/

namespace Sys2Proof.Machine

/-! ### The two transfers as equations (40_executor.md R92) -/

theorem exec_jeq (rd rs : RegIdx) (imm : Imm1) (s : State) :
    exec (.jeq rd rs imm) s = .next (advance (jeqEffect (comparator (readReg s rd) (readReg s rs)) imm) s) := rfl

theorem exec_j (off : Int) (s : State) : exec (.j off) s = .next (advance off s) := rfl

/-- The three branches of `jeq`'s own effect (42_control_transfer.md R111). -/
theorem jeqEffect_comparator (a b : Int) (imm : Imm1) :
    jeqEffect (comparator a b) imm = if a = b then immValue imm else if imm = 0 then 1 else 0 := by
  simp only [jeqEffect, comparator, decide_eq_true_eq]

/-- `jeq`'s own effect is 1, a skip, exactly where equality agrees with `imm = 1` (42_control_transfer.md R113). -/
theorem jeqEffect_eq_one_iff (a b : Int) (imm : Imm1) :
    jeqEffect (comparator a b) imm = 1 ↔ (a = b ↔ imm = 1) := by
  rw [jeqEffect_comparator]
  by_cases hab : a = b
  · simp [hab, eq_one_iff_immValue]
  · obtain ⟨rfl, -⟩ | ⟨rfl, -⟩ := immValue_cases imm <;> simp [hab]

/-- `j` goes to a target exactly by the offset one short of the distance: its net displacement is `off + 1`
(42_control_transfer.md R114). -/
theorem exec_j_reaches_iff (s : State) (off target : Int) :
    (∃ t, exec (.j off) s = .next t ∧ t.pc = target) ↔ off = target - s.pc - 1 := by
  simp only [exec_j, Host.Outcome.next.injEq, exists_eq_left', advance_pc]
  omega

/-- A step that runs a transfer advances the PC, by whatever own effect, and does nothing else. -/
theorem step_transfer {s : State} {w : Word8} (hf : Fetches s w)
    (hd : (∃ off, decode w = .instr (.j off)) ∨ ∃ rd rs imm, decode w = .instr (.jeq rd rs imm)) :
    ∃ k, step s = .next (advance k s) := by
  obtain ⟨off, hj⟩ | ⟨rd, rs, imm, hjeq⟩ := hd
  · exact ⟨_, (step_executed hf hj).trans (exec_j off s)⟩
  · exact ⟨_, (step_executed hf hjeq).trans (exec_jeq rd rs imm s)⟩

end Sys2Proof.Machine

namespace Sys2Proof

open Machine

/-! ### The effects (42_control_transfer.md R111, R113, R114) -/

/-- Settles O34. -/
theorem jeqEffect : Obligations.JeqEffect := by
  refine ⟨fun s rd rs imm => ⟨fun _ => opField_encodeR _ rd rs imm, _, exec_jeq rd rs imm s, fun h => ?_, fun h h0 => ?_,
    fun h h0 => ?_, fun _ => rfl, rfl, rfl⟩, by decide, fun s h1 hpc => ⟨_, exec_jeq 1 0 1 s, ?_⟩⟩
  · rw [advance_pc, jeqEffect_comparator, if_pos h]
  · rw [advance_pc, jeqEffect_comparator, if_neg h, if_pos h0, add_assoc]
    rfl
  · rw [advance_pc, jeqEffect_comparator, if_neg h, if_neg h0, add_zero]
  · rw [advance_pc, jeqEffect_comparator, h1, hpc]
    rfl

/-- Settles O35: the PC moves by `jeq`'s own effect and 1, and the effect is 0 or 1. -/
theorem jeqSkipCondition : Obligations.JeqSkipCondition := by
  intro s rd rs imm
  have hskip := jeqEffect_eq_one_iff (readReg s rd) (readReg s rs) imm
  have hbounds := jeqEffect_bounds (comparator (readReg s rd) (readReg s rs)) imm
  refine ⟨_, exec_jeq rd rs imm s, ?_⟩
  rw [← hskip, advance_pc]
  omega

/-- Settles O36. -/
theorem jumpEffect : Obligations.JumpEffect := by
  refine ⟨fun s off => ⟨fun h => ⟨BitVec.extractLsb'_append_eq_left, sext_offField_encode_j h⟩, _, exec_j off s, rfl,
    fun _ => rfl, rfl, rfl⟩, by decide, fun s hpc => ⟨_, exec_j (-2) s, ?_⟩⟩
  rw [advance_pc, hpc]
  rfl

/-! ### The reach (42_control_transfer.md R118) -/

/-- Settles O37: the one offset that reaches the target is in range exactly where the target is. -/
theorem jumpReach : Obligations.JumpReach := by
  refine ⟨fun s target => ?_, fun s t rd rs imm he => ?_⟩
  · simp only [exec_j_reaches_iff, offsetOk_iff]
    constructor
    · intro hreach
      exact ⟨target - s.pc - 1, ⟨by omega, rfl⟩, fun _ _ h => h⟩
    · rintro ⟨off, ⟨hok, rfl⟩, -⟩
      omega
  · have hbounds := jeqEffect_bounds (comparator (readReg s rd) (readReg s rs)) imm
    obtain rfl := Host.Outcome.next.inj ((exec_jeq rd rs imm s).symm.trans he)
    rw [advance_pc]
    omega

/-! ### Targets out of bounds (42_control_transfer.md R117) -/

/-- Settles O38: a transfer leaves the core RUNNING at its target, where the next step's bounds check finds it. -/
theorem targetFaultsAtNextStep : Obligations.TargetFaultsAtNextStep := by
  intro s t w hf hd hstep
  refine ⟨fun off hj => ?_, fun rd rs imm hjeq => ?_, ?_⟩
  · obtain rfl := Host.Outcome.next.inj ((exec_j off s).symm.trans ((step_executed hf hj).symm.trans hstep))
    rfl
  · obtain ⟨-, u, hu, heq, hskip, hfall, -, -⟩ := jeqEffect.1 s rd rs imm
    obtain rfl := Host.Outcome.next.inj (hu.symm.trans ((step_executed hf hjeq).symm.trans hstep))
    split_ifs with h h0
    · exact heq h
    · exact hskip h h0
    · exact hfall h h0
  · obtain ⟨k, hk⟩ := step_transfer hf hd
    obtain rfl := Host.Outcome.next.inj (hk.symm.trans hstep)
    refine ⟨hf.run, rfl, fun hout => ?_⟩
    exact ⟨_, step_outOfRange hf.rst hf.run hout, faultEntered_enterFault .pcOutOfRange _⟩

end Sys2Proof

/-! The system group: what `input`, `print`, `exit` and `empty` do where they need not wait, and the lines that become
`empty` (43_system_io.md R121 to R127, 30_encoding.md R76). -/

namespace Sys2Proof.Machine

/-! ### The channels (43_system_io.md R121, R123) -/

/-- A value that the port can carry is offered in two's complement, after the offers already made (20_memory.md R41). -/
theorem hostAct_offerInput {s : State} {v : Int} (hv : inRange s.build v = true) :
    hostAct (.offerInput v) s = .next { s with inOffers := s.inOffers ++ [twos s.build.xlen v] } := by
  rw [hostAct, if_pos hv]

/-- An `input` that finds a word consumes it into r1, ends the wait and moves on. -/
theorem input_consumes_offer {s : State} {w : Nat} {rest : List Nat} (ho : s.inOffers = w :: rest) :
    ∃ t, exec .input s = .next t ∧ readReg t 1 = sext s.build.xlen w ∧ t.pc = s.pc + 1 ∧
      t.inOffers = rest ∧ t.inWait = false ∧ RunSame s t :=
  ⟨_, exec_input_offered ho, by simp, by simp, by simp, by simp, by simp, by simp⟩

/-- Settles O40: the word read is sign-extended into range, and the offer of a value in range is the word that
sign-extends to it. -/
theorem inputEffect : Obligations.InputEffect := by
  constructor
  · intro s w rest ho
    obtain ⟨t, he, hr1, hpc, hrest, hwait, hrun⟩ := input_consumes_offer ho
    refine ⟨by simp [inValid, ho], t, he, hr1, hpc, hrest, hwait, hrun, fun hx => ?_⟩
    rw [hr1]
    exact inRange_sext s.build w hx
  · intro s v hx hnone hv
    have hact := hostAct_offerInput hv
    rw [hnone, List.nil_append] at hact
    obtain ⟨u, he, hr1, -, hrest, -, -⟩ :=
      input_consumes_offer (s := { s with inOffers := [twos s.build.xlen v] }) rfl
    exact ⟨_, u, hact, he, hr1.trans (sext_twos s.build v hx hv), hrest⟩

/-- Settles O42. -/
theorem printEffect : Obligations.PrintEffect :=
  fun _ hready => ⟨_, exec_print_ready hready, rfl, by simp, rfl, fun _ => rfl, rfl, rfl⟩

/-! ### `exit` and `empty` (43_system_io.md R125, R127) -/

theorem exec_exit (s : State) : exec .exit s = .next (halt s) := rfl

theorem exec_empty (s : State) : exec .empty s = .next (advance 0 s) := rfl

/-- The halt changes the run state alone (00_scope.md R13). -/
theorem halt_frame (s : State) : RegsSame s (halt s) ∧ ChannelsSame s (halt s) ∧ HostPartSame s (halt s) :=
  ⟨fun _ => rfl, ⟨rfl, rfl, rfl, rfl⟩, ⟨rfl, fun _ => rfl, rfl, rfl, rfl⟩⟩

/-- Settles O45. -/
theorem exitEffect : Obligations.ExitEffect :=
  ⟨rfl, fun s => ⟨halt s, exec_exit s, rfl, rfl, rfl, halt_frame s⟩⟩

/-! ### The lines that become `empty` (30_encoding.md R76) -/

/-- A line whose token list is the one token `empty` is the instruction `empty`. -/
theorem assembleLine_of_loadLine_empty {cfg : AsmConfig} {line : List Char} (h : loadLine cfg line = [nameEmpty]) :
    assembleLine cfg line = .ok .empty := by
  rw [assembleLine, h]
  exact checkTokens_renderTokens (i := .empty) rfl

/-- Where the comment removal leaves no token, the Loader puts the placeholder (30_encoding.md R76). -/
theorem loadLine_of_no_tokens {cfg : AsmConfig} {line : List Char} (h : dropComment cfg (splitTokens [] line) = []) :
    loadLine cfg line = [nameEmpty] := by
  rw [loadLine, h]

/-- A comment from the first token on leaves no token. -/
theorem dropComment_of_startsComment {cfg : AsmConfig} {t : List Char} (ts : List (List Char))
    (h : startsComment cfg t = true) : dropComment cfg (t :: ts) = [] := by
  rw [dropComment, if_pos h]

/-- The three kinds of line that the Loader makes `empty` (30_encoding.md R76). A marker that is the beginning of the
mnemonic itself makes the line of the one token `empty` a comment, which is `empty` all the same. -/
theorem loadLine_eq_empty {cfg : AsmConfig} {line : List Char}
    (h : splitTokens [] line = [] ∨ (∃ t ts, splitTokens [] line = t :: ts ∧ startsComment cfg t = true) ∨
      splitTokens [] line = [nameEmpty]) : loadLine cfg line = [nameEmpty] := by
  rcases h with hnone | ⟨t, ts, htokens, ht⟩ | hname
  · refine loadLine_of_no_tokens ?_
    rw [hnone, dropComment]
  · refine loadLine_of_no_tokens ?_
    rw [htokens, dropComment_of_startsComment ts ht]
  · by_cases hmark : startsComment cfg nameEmpty = true
    · refine loadLine_of_no_tokens ?_
      rw [hname, dropComment_of_startsComment [] hmark]
    · rw [loadLine, hname, dropComment, if_neg hmark, dropComment]

/-! ### `empty` in a program (43_system_io.md R127) -/

/-- A blank line followed by `exit`, loaded and at its beginning, halts at index 1 (43_system_io.md R127's example). -/
theorem empty_then_exit_halts {s : State} (hrst : s.rst = false) (hrun : s.run = .running) (hpc : s.pc = 0)
    (hlen : s.progLen = 2) (hempty : Memory.read s.imem 0 = some 0xE0) (hexit : Memory.read s.imem 1 = some 0xE3) :
    ∃ t u, step s = .next t ∧ t.pc = 1 ∧ step t = .next u ∧ u.run = .halted ∧ u.pc = 1 := by
  have hpc1 : (advance 0 s).pc = 1 := by simp [hpc]
  have hf : Fetches s 0xE0 := ⟨hrst, hrun, by omega, by omega, by rw [hpc]; exact hempty⟩
  have hf' : Fetches (advance 0 s) 0xE3 :=
    ⟨hrst, hrun, by omega, by rw [hpc1, advance_progLen, hlen]; decide, by rw [hpc1]; exact hexit⟩
  exact ⟨_, _, (step_executed hf (decode_encode (i := .empty) rfl)).trans (exec_empty s), hpc1,
    (step_executed hf' (decode_encode (i := .exit) rfl)).trans (exec_exit _), rfl, hpc1⟩

/-- Settles O46: a line of whitespace has no tokens, and a marker after whitespace begins the first token. -/
theorem emptyEffect : Obligations.EmptyEffect := by
  refine ⟨rfl, fun cfg line h => assembleLine_of_loadLine_empty (loadLine_eq_empty h), fun cfg line hblanks => ?_,
    fun cfg blanks tail hblanks h1 h2 => ?_, fun s => ⟨_, exec_empty s, by simp, advance_frame 0 s⟩, by decide,
    fun s => empty_then_exit_halts⟩
  · refine assembleLine_of_loadLine_empty (loadLine_eq_empty (.inl ?_))
    exact splitTokens_blanks fun c hc => (isBlank_iff c).2 (hblanks c hc)
  · obtain ⟨t, ts, htokens, ht⟩ := splitTokens_marker h1 h2 tail
    refine assembleLine_of_loadLine_empty (loadLine_eq_empty (.inr (.inl ⟨t, ts, ?_, ht⟩)))
    rw [splitTokens_blanks_append fun c hc => (isBlank_iff c).2 (hblanks c hc), htokens]

end Sys2Proof.Machine

/-! Exceptions: the one fault of a step and its priority, what its entry writes, the terminal states, and what the host
makes of the final status (60_exceptions.md R131 to R138). -/

namespace Sys2Proof.Machine

/-! ### The priority of the faults (60_exceptions.md R138) -/

/-- The cause after an instruction: ARITH_OVERFLOW exactly where a range check fails, else the cause before it. -/
theorem ExecEffect.cause_eq {i : Instr} {s t : State} (h : ExecEffect s i t) :
    t.cause = if overflows s i then .arithOverflow else s.cause := by
  cases h with
  | overflow _ hov => rw [if_pos hov, enterFault_cause]
  | result _ _ hno => simp [hno]
  | jeq | jump | empty | inputWait | inputDone | printWait | printDone | exit => simp [overflows]

/-- Settles O7: out of bounds nothing is fetched, and an illegal word is not executed. -/
theorem faultPriorityOrder : Obligations.FaultPriorityOrder := by
  intro s hrst hrun hnone
  refine ⟨fun ho => ⟨_, step_outOfRange hrst hrun ho, rfl⟩, fun w hf => ?_⟩
  cases hd : decode w with
  | illegal why => exact ⟨_, step_illegal hf hd, rfl⟩
  | instr i =>
    obtain ⟨t, he⟩ := exec_answers i s
    exact ⟨t, (step_executed hf hd).trans he, hnone ▸ (exec_effect he).cause_eq⟩

/-! ### The fault entry (60_exceptions.md R131) -/

/-- An instruction faults only by the overflow entry. -/
theorem ExecEffect.eq_enterFault_of_faulted {i : Instr} {s t : State} (h : ExecEffect s i t) (hs : s.run ≠ .faulted)
    (ht : t.run = .faulted) : t = enterFault .arithOverflow s := by
  cases h with
  | overflow => rfl
  | exit => cases ht
  | _ => exact absurd (by simpa using ht) hs

/-- A step from RUNNING faults only by a fault entry with a cause (10_state.md R29). -/
theorem StepEffect.eq_enterFault_of_faulted {s t : State} (h : StepEffect s t) (hs : s.run = .running)
    (ht : t.run = .faulted) : ∃ c, c ≠ .none ∧ t = enterFault c s := by
  cases h with
  | reset => cases ht
  | held _ hne => exact absurd hs hne
  | outOfRange => exact ⟨.pcOutOfRange, by decide, rfl⟩
  | illegal => exact ⟨.illegalInstruction, by decide, rfl⟩
  | executed _ _ he =>
    exact ⟨.arithOverflow, by decide, (exec_effect he).eq_enterFault_of_faulted (by simp [hs]) ht⟩

/-- Settles O8: the step is a fault entry, and the two codes stand in the low bits of STATUS. -/
theorem faultingStepWritesOnlyStatus : Obligations.FaultingStepWritesOnlyStatus := by
  intro s t _ hrun hstep ht
  obtain ⟨c, hc, rfl⟩ := (step_effect hstep).eq_enterFault_of_faulted hrun ht
  obtain ⟨hstate, hcause, -, -⟩ := extract_statusLayout s.outWait s.inWait (causeCode c) (stateCode .faulted)
  exact ⟨rfl, hc, hstate, hcause, rfl⟩

/-! ### The terminal states (60_exceptions.md R137) -/

theorem ended_iff (s : State) : ended s = true ↔ s.run ≠ .running := decide_eq_true_iff

theorem endsWell_iff (s : State) : endsWell s = true ↔ s.run = .halted := decide_eq_true_iff

/-- A core that has ended drives neither channel. -/
theorem drivesChannels_of_ended {s : State} (h : s.run ≠ .running) : drivesChannels s = false := by
  simp [drivesChannels, h]

/-- Settles O9: a terminal state steps to itself. -/
theorem terminalStatesHold : Obligations.TerminalStatesHold := by
  intro s k hrst hended
  have hrun := (ended_iff s).1 hended
  have hdrives := drivesChannels_of_ended hrun
  exact ⟨run_fixed (step_terminal hrst hrun) k, by simp [inReady, hdrives], by simp [outValid, hdrives]⟩

/-! ### The final status (60_exceptions.md R135) -/

section
variable {s : State}

theorem exitStatus_running (h : s.run = .running) : exitStatus s = none := by
  rw [exitStatus, h]

theorem exitStatus_halted (h : s.run = .halted) : exitStatus s = some 0 := by
  rw [exitStatus, h]

theorem exitStatus_faulted (h : s.run = .faulted) : exitStatus s = some faultExitStatus := by
  rw [exitStatus, h]

theorem faultExitStatus_ne_zero : faultExitStatus ≠ 0 := Nat.succ_ne_zero _

theorem faultDiagnostic_halted (h : s.run = .halted) : faultDiagnostic s = none := by
  rw [faultDiagnostic, h]

/-- Every fault has an Error diagnostic, and the end of the program has the source's text (60_exceptions.md R132). -/
theorem faultDiagnostic_faulted (h : s.run = .faulted) :
    ∃ d, faultDiagnostic s = some d ∧ d.marker = "Error" ∧
      (s.cause = .pcOutOfRange → d.text = "reached end of program without explicit halt") := by
  rw [faultDiagnostic, h]
  cases s.cause with
  | pcOutOfRange => exact ⟨_, rfl, rfl, fun _ => rfl⟩
  | none | illegalInstruction | arithOverflow => exact ⟨_, rfl, rfl, nofun⟩

/-- Exit status 0 is HALTED's alone. -/
theorem exitStatus_eq_zero_iff : exitStatus s = some 0 ↔ s.run = .halted := by
  cases hrun : s.run with
  | running => simp [exitStatus_running hrun]
  | halted => simp [exitStatus_halted hrun]
  | faulted => simp [exitStatus_faulted hrun, faultExitStatus_ne_zero]

/-- A core that still runs is the only one without an exit status. -/
theorem exitStatus_eq_none_iff : exitStatus s = none ↔ s.run = .running := by
  cases hrun : s.run with
  | running => simp [exitStatus_running hrun]
  | halted => simp [exitStatus_halted hrun]
  | faulted => simp [exitStatus_faulted hrun]

end

/-- Settles O50. -/
theorem exitStatusMapping : Obligations.ExitStatusMapping := by
  refine fun s => ⟨fun h => ⟨exitStatus_halted h, faultDiagnostic_halted h⟩, fun h => ?_, exitStatus_running,
    (endsWell_iff s).trans exitStatus_eq_zero_iff.symm, (ended_iff s).trans (not_congr exitStatus_eq_none_iff.symm)⟩
  obtain ⟨d, hd, hmarker, htext⟩ := faultDiagnostic_faulted h
  exact ⟨faultExitStatus, d, exitStatus_faulted h, faultExitStatus_ne_zero, hd, hmarker, htext⟩

end Sys2Proof.Machine

/-! Reset and the host between steps: what a reset edge does, what each action of the host does and that it keeps the
invariant, that every program that fits is loaded, and that rejected text stays in reset (70_reset_and_hazards.md R150 to
R158). -/

namespace Sys2Proof.Machine

/-! ### The reset edge (70_reset_and_hazards.md R150, R158) -/

/-- STATUS is 0 after a reset edge (10_state.md R30, R35). -/
theorem statusWord_coreReset (s : State) : statusWord (coreReset s) = 0 := by
  simp [statusWord, stateCode, causeCode]

/-- A waiting transfer is abandoned: after a reset edge neither channel is driven. -/
theorem channels_idle_coreReset (s : State) : inReady (coreReset s) = false ∧ outValid (coreReset s) = false := by
  simp [inReady, outValid]

/-- Settles O11: the step is `coreReset`, which writes the core's part and nothing of the host's. -/
theorem resetEdgeClearsCore : Obligations.ResetEdgeClearsCore := by
  intro s hrst
  obtain ⟨hin, hout⟩ := channels_idle_coreReset s
  exact ⟨coreReset s, step_in_reset hrst, readReg_coreReset s, rfl, rfl, rfl, statusWord_coreReset s, hin, hout, rfl,
    rfl, rfl, rfl, hrst, rfl⟩

/-- The reset states are those whose core part has the values of 10_state.md R35, whatever the host's part. -/
theorem coreReset_eq_self_iff (s : State) :
    coreReset s = s ↔ (s.x1 = 0 ∧ s.x2 = 0 ∧ s.x3 = 0) ∧ s.pc = 0 ∧ (s.run = .running ∧ s.cause = .none) ∧
      s.inWait = false ∧ s.outWait = false := by
  constructor
  · intro h
    rw [← h]
    simp
  · cases s
    rintro ⟨⟨rfl, rfl, rfl⟩, rfl, ⟨rfl, rfl⟩, rfl, rfl⟩
    rfl

/-! ### The host's actions one at a time (70_reset_and_hazards.md R157) -/

theorem hostAct_assertReset (s : State) : hostAct .assertReset s = .next { coreReset s with rst := true } := rfl

theorem hostAct_setOutReady (s : State) (b : Bool) : hostAct (.setOutReady b) s = .next { s with outReady := b } := rfl

/-- With all `N` words written, `rst` can be released (70_reset_and_hazards.md R151). -/
theorem hostAct_releaseReset {s : State} (hrst : s.rst = true) (hl : imageLoaded s = true) :
    hostAct .releaseReset s = .next { coreReset s with rst := false } := by
  simp [hostAct, hrst, hl]

theorem hostAct_setProgLen {s : State} {n : Nat} (hrst : s.rst = true) (hn : n ≤ s.build.imemDepth) :
    hostAct (.setProgLen n) s = .next { s with progLen := n } := by
  simp [hostAct, hrst, hn]

/-- Settles O58: one equation per action; the word offered is the value in two's complement. -/
theorem hostActionsHaveTheirEffect : Obligations.HostActionsHaveTheirEffect := by
  refine ⟨hostAct_assertReset, fun s hrst hw => ?_, fun s n hrst hn => hostAct_setProgLen hrst hn,
    fun s a w hrst ha => ?_, fun s v hx hlo hhi => ?_, hostAct_setOutReady⟩
  · exact hostAct_releaseReset hrst ((imageLoaded_iff s).2 fun a ha => Option.isSome_iff_exists.2 (hw a ha))
  · refine ⟨_, hostAct_writeImem hrst ha, rfl, ?_, fun b hb => ?_⟩
    · rw [Memory.read_write, if_pos rfl]
    · rw [Memory.read_write, if_neg hb]
  · exact ⟨_, hostAct_offerInput ((inRange_iff _ _).2 ⟨hlo, hhi⟩), twos_lt _ _, sext_twos_of_fits hx hlo hhi⟩

/-! ### The invariant under the host's actions -/

/-- Driving `rst` to either level around a reset edge keeps the invariant, if the image is loaded at a release. -/
theorem Inv.driveReset {s : State} {b : Bool} (h : Inv s) (hl : b = false → imageLoaded s = true) :
    Inv { coreReset s with rst := b } :=
  { h with
    regs_range := fun r => (readReg_coreReset s r).symm ▸ inRange_zero s.build
    loaded := hl
    pc_low := by simp
    pc_high := show (0 : Int) ≤ (s.progLen : Int) + 15 by omega
    cause_iff := by simp
    in_wait := by simp
    out_wait := by simp
    in_reset := fun _ => rfl }

/-- Under the invariant the host can put any image that fits the memory before a core in reset, whose PC is 0. -/
theorem Inv.placeImage {s : State} {m : Memory} {n : Nat} (h : Inv s) (hrst : s.rst = true)
    (hn : n ≤ s.build.imemDepth) (hwf : Memory.wf m = true)
    (hdepth : ∀ a, s.build.imemDepth ≤ a → Memory.read m a = none) : Inv { s with imem := m, progLen := n } := by
  have hcore := (coreReset_eq_self_iff s).1 (h.in_reset hrst)
  have ⟨_, hpc, _, hin, hout⟩ := hcore
  exact { h with
    progLen_le := hn
    imem_wf := hwf
    imem_depth := hdepth
    loaded := by simp [hrst]
    pc_high := show s.pc ≤ (n : Int) + 15 by omega
    in_wait := by simp [hin]
    out_wait := by simp [hout]
    in_reset := fun _ => (coreReset_eq_self_iff _).2 hcore }

/-- New offers that fit the port, and either level of `out_ready`, keep the invariant: which instruction is at the PC, and
whether it waits, stays as it was. -/
theorem Inv.driveChannels {s : State} {l : List Nat} {b : Bool} (h : Inv s) (hl : ∀ w ∈ l, w < 2 ^ s.build.xlen) :
    Inv { s with inOffers := l, outReady := b } :=
  { h with
    offers_width := hl
    in_reset := fun hr => (coreReset_eq_self_iff _).2 ((coreReset_eq_self_iff s).1 (h.in_reset hr)) }

/-- Settles O16, by the effects of the host's actions. -/
theorem invKeptByHost : Obligations.InvKeptByHost := by
  intro a s t h hact
  cases hostAct_effect hact with
  | assertReset => exact h.driveReset (by simp)
  | releaseReset _ hl => exact h.driveReset fun _ => hl
  | released => exact h
  | writeImem index w hrst hi =>
    refine h.placeImage hrst h.progLen_le (Memory.wf_write _ _ _ h.imem_wf) fun a ha => ?_
    rw [Memory.read_write, if_neg (by omega)]
    exact h.imem_depth a ha
  | setProgLen n hrst hn => exact h.placeImage hrst hn h.imem_wf h.imem_depth
  | offerInput v =>
    refine h.driveChannels fun w hw => ?_
    rcases List.mem_append.1 hw with hold | hnew
    · exact h.offers_width w hold
    · exact List.mem_singleton.1 hnew ▸ twos_lt _ _
  | withdrawInput => exact h
  | setOutReady => exact h.driveChannels h.offers_width

/-! ### The load of a program that fits (70_reset_and_hazards.md R151) -/

/-- A sequence of host actions that succeeds hands its state to the actions after it. -/
theorem hostRun_append {as bs : List HostAction} {s t : State} (h : hostRun as s = .next t) :
    hostRun (as ++ bs) s = hostRun bs t := by
  induction as generalizing s with
  | nil => exact congrArg (hostRun bs) (Host.Outcome.next.inj h)
  | cons a as ih =>
    obtain ⟨u, hu, hrest⟩ := hostRun_cons_cases h
    rw [List.cons_append, hostRun_cons hu, ih hrest]

/-- In reset the writes of an image that fits succeed, and change the memory alone. -/
theorem hostRun_imageWrites {k : Nat} {ws : List Word8} {s : State} (hrst : s.rst = true)
    (hk : k + ws.length ≤ s.build.imemDepth) : ∃ m, hostRun (imageWrites k ws) s = .next { s with imem := m } := by
  induction ws generalizing k s with
  | nil => exact ⟨s.imem, rfl⟩
  | cons w ws ih =>
    rw [List.length_cons] at hk
    obtain ⟨m, hm⟩ := ih (k := k + 1) (s := { s with imem := Memory.write s.imem k w }) hrst
      (show _ ≤ s.build.imemDepth by omega)
    exact ⟨m, (hostRun_cons (hostAct_writeImem hrst (by omega))).trans hm⟩

theorem loadActions_eq_cons (ws : List Word8) :
    loadActions ws = .assertReset :: (imageWrites 0 ws ++ [.setProgLen ws.length, .releaseReset]) := rfl

/-- The load of a program that fits answers the reset state, out of reset, with the program as its image. -/
theorem hostRun_loadActions {ws : List Word8} {s : State} (hlen : ws.length ≤ s.build.imemDepth) :
    ∃ m, hostRun (loadActions ws) s =
      .next { coreReset s with imem := m, progLen := ws.length, rst := false } ∧
      ∀ k, k < ws.length → Memory.read m k = ws[k]? := by
  obtain ⟨m, hwrites⟩ := hostRun_imageWrites (k := 0) (ws := ws) (s := { coreReset s with rst := true }) rfl
    (by simpa using hlen)
  have hread : ∀ k, k < ws.length → Memory.read m k = ws[k]? := by
    simpa using (read_of_imageWrites hwrites).2
  have hloaded : imageLoaded { coreReset s with imem := m, progLen := ws.length, rst := true } = true :=
    (imageLoaded_iff _).2 fun a ha => by simp [hread a ha, show a < ws.length from ha]
  refine ⟨m, ?_, hread⟩
  calc hostRun (loadActions ws) s
      = hostRun (imageWrites 0 ws ++ [HostAction.setProgLen ws.length, HostAction.releaseReset])
          { coreReset s with rst := true } := by rw [loadActions_eq_cons, hostRun_cons (hostAct_assertReset s)]
    _ = hostRun [.setProgLen ws.length, .releaseReset] { coreReset s with imem := m, rst := true } :=
        hostRun_append hwrites
    _ = hostRun [.releaseReset] { coreReset s with imem := m, progLen := ws.length, rst := true } :=
        hostRun_cons (hostAct_setProgLen rfl hlen)
    _ = .next { coreReset s with imem := m, progLen := ws.length, rst := false } :=
        hostRun_cons (hostAct_releaseReset rfl hloaded)

/-- Settles O49. -/
theorem loadPlacesTheProgram : Obligations.LoadPlacesTheProgram := by
  intro ws s hlen
  obtain ⟨m, hrun, hread⟩ := hostRun_loadActions hlen
  exact ⟨_, hrun, rfl, rfl, rfl, rfl, readReg_coreReset s, rfl, hread⟩

/-! ### Rejected text (70_reset_and_hazards.md R152) -/

/-- Booting text that the assembler rejects asserts `rst` and no more. -/
theorem bootText_rejected {cfg : AsmConfig} {text : List Char} {ds : List Diagnostic} (s : State)
    (h : assemble cfg text = .rejected ds) : bootText cfg text s = .next { coreReset s with rst := true } := by
  simp only [bootText, h]
  exact hostRun_cons (hostAct_assertReset s)

/-- A core held in its reset state stays there, whatever the number of steps. -/
theorem run_held_in_reset {s : State} (hrst : s.rst = true) (hcore : coreReset s = s) (k : Nat) :
    Sys2Proof.core.run k s = .next s :=
  run_fixed (by rw [step_in_reset hrst, hcore]) k

/-- Settles O57: the boot ends in the reset state with `rst = 1`, which every step keeps. -/
theorem rejectedTextNeverRuns : Obligations.RejectedTextNeverRuns := by
  intro cfg text ds s t u k hasm hboot hrun
  obtain rfl := Host.Outcome.next.inj ((bootText_rejected s hasm).symm.trans hboot)
  obtain rfl := Host.Outcome.next.inj ((run_held_in_reset rfl rfl k).symm.trans hrun)
  exact ⟨rfl, rfl, rfl, rfl, rfl, rfl⟩

end Sys2Proof.Machine
